-- ==== Sys2Proof/Word.lean ====
section
/-!
DEFINITION. The byte, the register index and the truncation every rule of spec/ computes with
(00_scope.md R10 to R12, 10_state.md R20).
-/

namespace Sys2Proof

/-- A byte: a memory cell, a register's content, an operand byte (R10, R20, R50). Unsigned everywhere. -/
abbrev Byte := BitVec 8

/-- The index of a general register, 0 to 7 (10_state.md R20, R21). An index out of range cannot be
written down: the decoder refuses the byte before an instruction is built (30_encoding.md R77). -/
abbrev Reg := Fin 8

/-- `trunc8(v) = v mod 256` (00_scope.md R11), on the exact natural number a rule computes (R12). -/
def trunc8 (n : Nat) : Byte := BitVec.ofNat 8 n

/-- The operand byte that names register `r`: the whole byte is the index (30_encoding.md R77). -/
def regByte (r : Reg) : Byte := BitVec.ofNat 8 r.val

end Sys2Proof
end

