-- ==== Sys2Proof/Syntax.lean ====
section
/-!
DEFINITION. The instructions: one constructor per row of spec/opcode_table.json (30_encoding.md R75, R76), in the
table's order. `a` is the register named by the first operand byte, `b` the one named by the second.
-/

namespace Sys2Proof

/-- The 20 instructions of 00_scope.md R2. -/
inductive Instr where
  /-- HLT (43_print_halt_load.md R181). -/
  | hlt
  /-- RET (41_stack.md R147). -/
  | ret
  /-- PUSH `Ra` (R144). -/
  | push (a : Reg)
  /-- POP `Ra` (R145). -/
  | pop (a : Reg)
  /-- PRN `Ra` (R180). -/
  | prn (a : Reg)
  /-- CALL `Ra` (R146). -/
  | call (a : Reg)
  /-- JMP `Ra` (42_control_flow.md R161). -/
  | jmp (a : Reg)
  /-- JEQ `Ra` (R162). -/
  | jeq (a : Reg)
  /-- JNE `Ra` (R163). -/
  | jne (a : Reg)
  /-- NOT `Ra` (40_alu.md R117). -/
  | not (a : Reg)
  /-- LDI `Ra,imm8` (R182). -/
  | ldi (a : Reg) (imm : Byte)
  /-- ADD `Ra,Rb` (R111). -/
  | add (a b : Reg)
  /-- MUL `Ra,Rb` (R112). -/
  | mul (a b : Reg)
  /-- MOD `Ra,Rb` (R120). -/
  | mod (a b : Reg)
  /-- CMP `Ra,Rb` (R113). -/
  | cmp (a b : Reg)
  /-- AND `Ra,Rb` (R114). -/
  | and (a b : Reg)
  /-- OR `Ra,Rb` (R115). -/
  | or (a b : Reg)
  /-- XOR `Ra,Rb` (R116). -/
  | xor (a b : Reg)
  /-- SHL `Ra,Rb` (R118). -/
  | shl (a b : Reg)
  /-- SHR `Ra,Rb` (R119). -/
  | shr (a b : Reg)
  deriving DecidableEq, Repr

end Sys2Proof
end

