-- ==== Sys2Proof/WellFormed.lean ====
section
/-!
DEFINITION. What a well-formed instruction is in memory: the formats (30_encoding.md R76) and the check of the
operand bytes (R77). An `Instr` carries its well-formedness in its type, because a register field is a `Reg`; what
can be ill-formed is the window of bytes the decoder latches, so the check is a predicate on those bytes. The decoder
makes the same check on its own (decodeReg); that the two agree is a statement of Certificates/Slice0/Obligations.lean.
-/

namespace Sys2Proof

/-- The names of the 20 operations, in the order of the table of R75. -/
inductive Mnemonic where
  | hlt | ret | push | pop | prn | call | jmp | jeq | jne | not
  | ldi | add | mul | mod | cmp | and | or | xor | shl | shr
  deriving DecidableEq, Repr

/-- The operation an instruction names. -/
def Instr.mnemonic : Instr → Mnemonic
  | .hlt => .hlt
  | .ret => .ret
  | .push _ => .push
  | .pop _ => .pop
  | .prn _ => .prn
  | .call _ => .call
  | .jmp _ => .jmp
  | .jeq _ => .jeq
  | .jne _ => .jne
  | .not _ => .not
  | .ldi _ _ => .ldi
  | .add _ _ => .add
  | .mul _ _ => .mul
  | .mod _ _ => .mod
  | .cmp _ _ => .cmp
  | .and _ _ => .and
  | .or _ _ => .or
  | .xor _ _ => .xor
  | .shl _ _ => .shl
  | .shr _ _ => .shr

/-- The two operand positions: byte `a` at `pc + 1` and byte `b` at `pc + 2` (R70). -/
inductive OperandPos where
  | a | b
  deriving DecidableEq, Repr

/-- What an instruction does with an operand byte (R76, R79). -/
inductive OperandKind where
  /-- fetched and ignored (R79) -/
  | unused
  /-- a register index (R77) -/
  | reg
  /-- an 8-bit immediate, used as is (R78) -/
  | imm
  deriving DecidableEq, Repr

/-- The kinds of bytes `a` and `b`, the formats F0, F1R, F2RI and F2RR of R76. -/
def Mnemonic.operandKinds : Mnemonic → OperandKind × OperandKind
  | .hlt | .ret => (.unused, .unused)
  | .push | .pop | .prn | .call | .jmp | .jeq | .jne | .not => (.reg, .unused)
  | .ldi => (.reg, .imm)
  | .add | .mul | .mod | .cmp | .and | .or | .xor | .shl | .shr => (.reg, .reg)

/-- Whether a byte may stand where an operand of this kind is expected (R77, R78, R79). -/
def OperandKind.admits : OperandKind → Byte → Bool
  | .unused, _ => true
  | .reg, v => v.toNat < 8
  | .imm, _ => true

/-- The first ill-formed operand byte, `a` before `b` (R77, R205 item 4). -/
def Mnemonic.badOperand (m : Mnemonic) (a b : Byte) : Option (OperandPos × Byte) :=
  if !m.operandKinds.1.admits a then some (.a, a)
  else if !m.operandKinds.2.admits b then some (.b, b)
  else none

/-- The operand bytes of operation `m` are well-formed. -/
def Mnemonic.wellFormed (m : Mnemonic) (a b : Byte) : Bool := (m.badOperand a b).isNone

end Sys2Proof
end

