-- ==== Sys2Proof/Decode.lean ====
section
/-!
DEFINITION. The instruction decoder and the encoder (30_encoding.md R70 to R86). The decoder is total on the three
bytes the core always latches (R92, R93) and rejects by name; decoding is pure (R80).
-/

namespace Sys2Proof

/-- The opcode of every operation, the table of R75. UNVERIFIED (log entry 3): the spec's decision D1; the source gives
no opcode value. R8 calls this map a parameter. -/
def opcodeOf : Mnemonic → Byte
  | .hlt => 0b00000001#8
  | .ret => 0b00010001#8
  | .push => 0b01000101#8
  | .pop => 0b01000110#8
  | .prn => 0b01000111#8
  | .call => 0b01010000#8
  | .jmp => 0b01010100#8
  | .jeq => 0b01010101#8
  | .jne => 0b01010110#8
  | .not => 0b01101001#8
  | .ldi => 0b10000010#8
  | .add => 0b10100000#8
  | .mul => 0b10100010#8
  | .mod => 0b10100100#8
  | .cmp => 0b10100111#8
  | .and => 0b10101000#8
  | .or => 0b10101010#8
  | .xor => 0b10101011#8
  | .shl => 0b10101100#8
  | .shr => 0b10101101#8

/-- The operations the dispatch multiplexer knows (R82). -/
def mnemonics : List Mnemonic :=
  [.hlt, .ret, .push, .pop, .prn, .call, .jmp, .jeq, .jne, .not,
   .ldi, .add, .mul, .mod, .cmp, .and, .or, .xor, .shl, .shr]

/-- `OPCODES`: the 20 opcode values of R75. -/
def opcodes : List Byte := mnemonics.map opcodeOf

/-- The operand count `n`, opcode bits 7:6 (R71). -/
def operandCount (op : Byte) : Nat := op.toNat / 64

/-- The PC-control bit `pcc`, opcode bit 4 (R72). -/
def pcControl (op : Byte) : Bool := op.getLsbD 4

/-- The length of the instruction an opcode begins, read from that byte alone (R74, R81). -/
def lengthOf (op : Byte) : Nat := 1 + operandCount op

/-- The opcode dispatch multiplexer (R82): the whole byte selects an operation, or none (R83). -/
def decodeOpcode (op : Byte) : Option Mnemonic := mnemonics.find? fun m => opcodeOf m == op

/-- The register a whole operand byte selects, or none for 8 to 255 (R77). -/
def decodeReg (v : Byte) : Option Reg := if h : v.toNat < 8 then some ⟨v.toNat, h⟩ else none

/-- Why the decoder rejects. -/
inductive DecodeError where
  /-- the opcode byte is in no row of the table (R83) -/
  | unknownOpcode (op : Byte)
  /-- a register operand byte is 8 to 255 (R77) -/
  | badRegister (op : Byte) (pos : OperandPos) (value : Byte)
  deriving DecidableEq, Repr

/-- Reads the operand byte `v` at position `pos` as a register and goes on with it, or rejects (R77). -/
def withReg (op : Byte) (pos : OperandPos) (v : Byte) (k : Reg → Except DecodeError Instr) :
    Except DecodeError Instr :=
  match decodeReg v with
  | some r => k r
  | none => .error (.badRegister op pos v)

/-- Format F1R: `a` is a register, `b` is ignored (R76, R79). -/
def decodeF1R (op a : Byte) (k : Reg → Instr) : Except DecodeError Instr :=
  withReg op .a a fun r => .ok (k r)

/-- Format F2RI: `a` is a register, `b` an immediate used unchanged (R76, R78). -/
def decodeF2RI (op a b : Byte) (k : Reg → Byte → Instr) : Except DecodeError Instr :=
  withReg op .a a fun r => .ok (k r b)

/-- Format F2RR: both are registers, `a` checked before `b` (R76, R77). -/
def decodeF2RR (op a b : Byte) (k : Reg → Reg → Instr) : Except DecodeError Instr :=
  withReg op .a a fun ra => withReg op .b b fun rb => .ok (k ra rb)

/-- The instruction that operation `m` makes of the latched operand bytes (R76). -/
def decodeOperands (m : Mnemonic) (op a b : Byte) : Except DecodeError Instr :=
  match m with
  | .hlt => .ok .hlt
  | .ret => .ok .ret
  | .push => decodeF1R op a .push
  | .pop => decodeF1R op a .pop
  | .prn => decodeF1R op a .prn
  | .call => decodeF1R op a .call
  | .jmp => decodeF1R op a .jmp
  | .jeq => decodeF1R op a .jeq
  | .jne => decodeF1R op a .jne
  | .not => decodeF1R op a .not
  | .ldi => decodeF2RI op a b .ldi
  | .add => decodeF2RR op a b .add
  | .mul => decodeF2RR op a b .mul
  | .mod => decodeF2RR op a b .mod
  | .cmp => decodeF2RR op a b .cmp
  | .and => decodeF2RR op a b .and
  | .or => decodeF2RR op a b .or
  | .xor => decodeF2RR op a b .xor
  | .shl => decodeF2RR op a b .shl
  | .shr => decodeF2RR op a b .shr

/-- The decoder on the latched window: opcode byte, byte `a`, byte `b` (R70, R93). -/
def decode (op a b : Byte) : Except DecodeError Instr :=
  match decodeOpcode op with
  | none => .error (.unknownOpcode op)
  | some m => decodeOperands m op a b

/-- The operand bytes of an instruction, in address order (R70, R76, R100). -/
def Instr.operandBytes : Instr → List Byte
  | .hlt | .ret => []
  | .push a | .pop a | .prn a | .call a | .jmp a | .jeq a | .jne a | .not a => [regByte a]
  | .ldi a imm => [regByte a, imm]
  | .add a b | .mul a b | .mod a b | .cmp a b | .and a b | .or a b | .xor a b | .shl a b
  | .shr a b => [regByte a, regByte b]

/-- The opcode byte of an instruction. -/
def Instr.opcode (i : Instr) : Byte := opcodeOf i.mnemonic

/-- The encoder: the bytes of an instruction in memory, the opcode at the lowest address (R70, R54). -/
def encode (i : Instr) : List Byte := i.opcode :: i.operandBytes

/-- The window the core latches when `rest` is what follows the instruction in memory (R79, R93). -/
def windowOf (i : Instr) (rest : List Byte) : Byte × Byte × Byte :=
  let bytes := encode i ++ rest
  (bytes.getD 0 0, bytes.getD 1 0, bytes.getD 2 0)

/-- Byte `k` of an instruction whose bits are `w`, of which the table gives `nbits`; the bits above are 0. -/
def tableByte (nbits w k : Nat) : Byte := BitVec.ofNat 8 (w % 2 ^ nbits / 256 ^ k)

/-- What the decoder reads from an instruction given as the opcode table numbers its bits. -/
def decodeTableWord (nbits w : Nat) : Option Instr :=
  match decode (tableByte nbits w 0) (tableByte nbits w 1) (tableByte nbits w 2) with
  | .ok i => some i
  | .error _ => none

end Sys2Proof
end

