-- ==== Sys2Proof/Config.lean ====
section
/-!
DEFINITION. The parameters of the core (00_scope.md R7). The spec fixes every one of them, so there is no
constant without a body here. The opcode values, which R8 calls a parameter too, stand in Decode.lean, and
what memory holds beyond the image stands in Machine/Ops.lean (memFill).
-/

namespace Sys2Proof.Config

/-- `MEM_SIZE`: 256 cells, addresses 0 to 255 (R7, 20_memory.md R50). -/
def memSize : Nat := 256

/-- `SP_INDEX`: the stack pointer is register 7 (R7, 10_state.md R22). -/
def spIndex : Reg := 7

/-- `SP_RESET` (R7, 10_state.md R24). -/
def spReset : Byte := 0xF4#8

/-- `PC_RESET` (R7, 10_state.md R30). -/
def pcReset : Nat := 0

/-- Where the image starts (R7, 70_reset_and_hazards.md R231). -/
def imageStart : Nat := 0

end Sys2Proof.Config
end

