-- ==== Sys2Proof/Machine/State.lean ====
section
/-!
DEFINITION. The state of the core (10_state.md R41), the faults it records (60_exceptions.md R201), and the state
right after reset (70_reset_and_hazards.md R230). Plain data throughout.
-/

namespace Sys2Proof.Machine

/-- Memory as (address, byte) cells: only what differs from the unlisted value is listed (20_memory.md R50).
Its form is `Memory.wf` of Machine/Ops.lean. -/
abbrev Memory := List Host.Cell

/-- The register file, R0 to R7, 8 bits each (10_state.md R20); R7 is the stack pointer (R22). -/
structure Regs where
  r0 : Byte
  r1 : Byte
  r2 : Byte
  r3 : Byte
  r4 : Byte
  r5 : Byte
  r6 : Byte
  r7 : Byte
  deriving DecidableEq, Repr

/-- The condition flags Less, Greater, Equal (10_state.md R31). -/
structure Flags where
  l : Bool
  g : Bool
  e : Bool
  deriving DecidableEq, Repr

/-- Where an address left 0 to 255 (60_exceptions.md R201). -/
inductive BoundsWhere where
  | opcodeFetch | operandFetch | stackPush | stackPop
  deriving DecidableEq, Repr

/-- A fault of the spec, kind and record together (60_exceptions.md R201). It is a value that `status` holds, not a way
for the model to stop: raising one gives a next state (R203). -/
inductive FaultRecord where
  /-- code 1: the opcode byte is in no row of the table (R83) -/
  | unknownOpcode (opcode : Byte) (pc : Nat)
  /-- code 2: a register operand byte is 8 to 255 (R77) -/
  | badRegister (opcode : Byte) (pc : Nat) (operand : OperandPos) (value : Byte)
  /-- code 3: an address outside 0 to 255 would be formed (R59); `addr` may be -1 or 256 -/
  | boundsViolation (site : BoundsWhere) (addr : Int) (pc : Nat)
  /-- code 4: MOD by zero (R120) -/
  | divisionByZero (pc : Nat) (divisorReg : Reg)
  /-- code 5: kept in the list for completeness, raised by nothing (R121) -/
  | unsupportedAluOp
  deriving DecidableEq, Repr

/-- Why the core halted (10_state.md R37). -/
inductive HaltReason where
  | hlt
  | fault (k : FaultRecord)
  deriving DecidableEq, Repr

/-- The run status (10_state.md R37). -/
inductive Status where
  | running
  | halted (r : HaltReason)
  deriving DecidableEq, Repr

/-- The whole state, R41, and the output stream (R38). -/
structure State where
  /-- the 256 memory cells (R50) -/
  mem : Memory
  /-- the general registers (R20) -/
  regs : Regs
  /-- the program counter, 0 to 256 (R26, R27) -/
  pc : Nat
  /-- the condition flags (R31) -/
  fl : Flags
  /-- the run status (R37) -/
  status : Status
  /-- the bytes PRN has printed, oldest first (R38) -/
  out : List Byte
  deriving DecidableEq, Repr

/-- How a step can stop without a next state. -/
inductive Fault where
  /-- Raised by `step` alone, in a state whose status is `Halted`: no step is enabled there (30_encoding.md R90, 60_exceptions.md
  R213). Safe: nothing is claimed of any later state. -/
  | halted (r : HaltReason)
  deriving DecidableEq, Repr

/-- What the model has no meaning for, or the spec refuses. -/
inductive Refusal where
  /-- Raised by an arm of `exec` whose instruction has no meaning yet (none at present). Safe. -/
  | notModelled (mnemonic : String)
  /-- Raised by `State.boot` alone: an image of more than 256 bytes is refused at the image input and the core does not
  start (70_reset_and_hazards.md R235). Safe: the refusal is the spec's own. -/
  | imageTooLong (length : Nat)
  deriving DecidableEq, Repr

/-- The register file at reset: R7 = 0xF4 and R0 to R6 = 0 (R24, R230). -/
def Regs.reset : Regs := ⟨0, 0, 0, 0, 0, 0, 0, Config.spReset⟩

/-- The flags at reset: all clear (R35, R230). -/
def Flags.reset : Flags := ⟨false, false, false⟩

/-- The machine right after reset, with no image placed (R230): `State.boot` of Machine/Boot.lean places one. -/
def State.reset : State :=
  { mem := []
    regs := Regs.reset
    pc := Config.pcReset
    fl := Flags.reset
    status := .running
    out := [] }

end Sys2Proof.Machine
end

