-- ==== Sys2Proof/Machine/Ops.lean ====
section
/-!
DEFINITION. The named operations over memory and registers, raising a fault, and the end of the execution cycle.
Every meaning is written over these.
-/

namespace Sys2Proof.Machine

/-! ### Memory -/

/-- What an address that is not listed reads as: 0, the cells beyond the image (20_memory.md R58). UNVERIFIED (log entry 10):
the spec's decision D8. -/
def memFill : Byte := 0#8

/-- `MemRead(addr, 1)` (00_scope.md R11, 20_memory.md R53). Every caller has checked that the address is 0 to 255 (R59). -/
def Memory.read : Memory → Nat → Byte
  | [], _ => memFill
  | (k, w) :: m, addr => if k = addr then w else Memory.read m addr

/-- A cell in front of a memory, left out when it holds what an unlisted address reads as. -/
def Memory.consCell (addr : Nat) (v : Byte) (m : Memory) : Memory :=
  if v = memFill then m else (addr, v) :: m

/-- `MemWrite(addr, 1, v)` (00_scope.md R11, 20_memory.md R53), keeping the cells in canonical form. -/
def Memory.write : Memory → Nat → Byte → Memory
  | [], addr, v => Memory.consCell addr v []
  | (k, w) :: m, addr, v =>
    if k < addr then (k, w) :: Memory.write m addr v
    else if k = addr then Memory.consCell addr v m
    else Memory.consCell addr v ((k, w) :: m)

/-- The canonical form: addresses strictly rising, all in the address space, and no cell that an unlisted address
would read the same as. Equal memories are then equal lists. -/
abbrev Memory.wf (m : Memory) : Prop :=
  m.Pairwise (fun c d => c.1 < d.1) ∧ ∀ c ∈ m, c.1 < Config.memSize ∧ c.2 ≠ memFill

/-- Writes bytes at increasing addresses from `addr` on (the image input, 00_scope.md R9). -/
def Memory.writeList : Memory → Nat → List Byte → Memory
  | m, _, [] => m
  | m, addr, v :: vs => Memory.writeList (m.write addr v) (addr + 1) vs

/-! ### Registers -/

/-- The content of register `r` (00_scope.md R11). -/
def Regs.get (x : Regs) (r : Reg) : Byte :=
  match r with
  | 0 => x.r0
  | 1 => x.r1
  | 2 => x.r2
  | 3 => x.r3
  | 4 => x.r4
  | 5 => x.r5
  | 6 => x.r6
  | 7 => x.r7

/-- The register file with `v` in register `r` (00_scope.md R11). No register is hard-wired (10_state.md R20). -/
def Regs.set (x : Regs) (r : Reg) (v : Byte) : Regs :=
  match r with
  | 0 => { x with r0 := v }
  | 1 => { x with r1 := v }
  | 2 => { x with r2 := v }
  | 3 => { x with r3 := v }
  | 4 => { x with r4 := v }
  | 5 => { x with r5 := v }
  | 6 => { x with r6 := v }
  | 7 => { x with r7 := v }

/-- `x[r]`. -/
def State.reg (s : State) (r : Reg) : Byte := s.regs.get r

/-- `x[r] <- v`. -/
def State.setReg (s : State) (r : Reg) (v : Byte) : State := { s with regs := s.regs.set r v }

/-- `SP`, another name for `x[7]` (10_state.md R22). -/
def State.sp (s : State) : Byte := s.reg Config.spIndex

/-- `SP <- v`. -/
def State.setSp (s : State) (v : Byte) : State := s.setReg Config.spIndex v

/-- The byte at an address held in a register. -/
def State.load (s : State) (addr : Byte) : Byte := s.mem.read addr.toNat

/-- Writes a byte at an address held in a register. -/
def State.store (s : State) (addr v : Byte) : State := { s with mem := s.mem.write addr.toNat v }

/-- `pc <- t`, an explicit set to an 8-bit value (10_state.md R27). -/
def State.jump (s : State) (t : Byte) : State := { s with pc := t.toNat }

/-- `FL <- f`: all three bits at once (10_state.md R31). -/
def State.setFlags (s : State) (f : Flags) : State := { s with fl := f }

/-- `out.append(v)` (00_scope.md R11). -/
def State.emit (s : State) (v : Byte) : State := { s with out := s.out ++ [v] }

/-- `status <- Halted(Hlt)` (00_scope.md R11). -/
def State.haltNormally (s : State) : State := { s with status := .halted .hlt }

/-! ### Faults and the end of a step -/

/-- Raising a fault (60_exceptions.md R203): `status` records it, and nothing else changes, `pc` included. The spec has no saved
register, no vector and no return from a fault (R200, R204), so there is no operation beside this one. -/
def State.raise (s : State) (k : FaultRecord) : State := { s with status := .halted (.fault k) }

/-- The end of the execution cycle (30_encoding.md R94): when the PC-control bit of the opcode is clear, `pc` moves past the
instruction; when it is set, the operation has written `pc` itself. -/
def State.endCycle (s : State) (m : Mnemonic) : State :=
  if pcControl (opcodeOf m) then s else { s with pc := s.pc + lengthOf (opcodeOf m) }

/-- One executed operation `m` from `s`: a raise gives up every write of the operation (00_scope.md R11, R96), and otherwise
the cycle ends (R94). -/
def State.finish (s : State) (m : Mnemonic) (r : Except FaultRecord State) :
    Host.Outcome State Fault Refusal :=
  match r with
  | .error k => .next (s.raise k)
  | .ok t => .next (t.endCycle m)

/-! ### The stack primitives -/

/-- SP minus 1, or the bounds violation of a push at SP = 0 (41_stack.md R141, R142). -/
def State.decSp (s : State) : Except FaultRecord State :=
  if s.sp = 0#8 then .error (.boundsViolation .stackPush (-1) s.pc)
  else .ok (s.setSp (trunc8 (s.sp.toNat - 1)))

/-- SP plus 1, or the bounds violation of a pop that would leave 256 (41_stack.md R141, R145). -/
def State.incSp (s : State) : Except FaultRecord State :=
  if 255 < s.sp.toNat + 1 then .error (.boundsViolation .stackPop (s.sp.toNat + 1) s.pc)
  else .ok (s.setSp (trunc8 (s.sp.toNat + 1)))

/-- The push primitive (R142): SP goes down, then the value is evaluated and written at the new SP. -/
def State.push (s : State) (value : State → Byte) : Except FaultRecord State :=
  match s.decSp with
  | .error k => .error k
  | .ok t => .ok (t.store t.sp (value t))

/-- The byte a pop reads, at SP (R143); the cell keeps it. -/
def State.top (s : State) : Byte := s.load s.sp

end Sys2Proof.Machine
end

