-- ==== Sys2Proof/Machine/Flags.lean ====
section
/-!
DEFINITION. The condition flags: the one computation that writes them, the one condition that reads them, and the
numeric layout (10_state.md R31 to R35).
-/

namespace Sys2Proof.Machine

/-- The flags CMP writes, from an unsigned comparison: exactly one bit (40_alu.md R113). -/
def Flags.compare (va vb : Byte) : Flags where
  l := va.toNat < vb.toNat
  g := vb.toNat < va.toNat
  e := va.toNat == vb.toNat

/-- The condition JEQ tests; JNE tests its negation (42_control_flow.md R162, R163). -/
def Flags.equal (f : Flags) : Bool := f.e

/-- The register's number as a host may show it: `FL[2] = L`, `FL[1] = G`, `FL[0] = E`, the rest 0 (10_state.md R33).
No instruction reads it. -/
def Flags.toByte (f : Flags) : Byte :=
  trunc8 (4 * f.l.toNat + 2 * f.g.toNat + f.e.toNat)

/-- At most one bit is set: the legal values of R34. -/
def Flags.legal (f : Flags) : Bool := f.l.toNat + f.g.toNat + f.e.toNat ≤ 1

end Sys2Proof.Machine
end

