-- ==== Sys2Proof/Machine/Operands.lean ====
section
/-!
DEFINITION. What the operands of the four formats of 30_encoding.md R76 stand for in a state.
-/

namespace Sys2Proof.Machine

/-- Format F2RR: the two source values, both read before anything is written (40_alu.md R110). -/
def State.sources (s : State) (a b : Reg) : Byte × Byte := (s.reg a, s.reg b)

/-- Format F2RI: the immediate, used unchanged (30_encoding.md R78). -/
def immValue (imm : Byte) : Byte := imm

/-- Format F1R of a jump or call: the target address is the register's content (30_encoding.md R76, 42_control_flow.md R160). -/
def State.target (s : State) (a : Reg) : Byte := s.reg a

end Sys2Proof.Machine
end

