-- ==== Sys2Proof/Machine/Alu.lean ====
section
/-!
DEFINITION. The ALU instructions (40_alu.md R110 to R121). Each result is computed on natural numbers and narrowed
once by `trunc8`, as the rules are written; only CMP writes the flags. The ten operations are a closed set, so the
unsupported operation of R121 has no form to take.
-/

namespace Sys2Proof.Machine

/-- R111. -/
def aluAdd (x y : Byte) : Byte := trunc8 (x.toNat + y.toNat)

/-- R112: the low 8 bits of the product. -/
def aluMul (x y : Byte) : Byte := trunc8 (x.toNat * y.toNat)

/-- R114. -/
def aluAnd (x y : Byte) : Byte := trunc8 (x.toNat &&& y.toNat)

/-- R115. -/
def aluOr (x y : Byte) : Byte := trunc8 (x.toNat ||| y.toNat)

/-- R116. -/
def aluXor (x y : Byte) : Byte := trunc8 (x.toNat ^^^ y.toNat)

/-- R117: the 8-bit complement. -/
def aluNot (x : Byte) : Byte := trunc8 (255 - x.toNat)

/-- R118: the whole register is the count, so 8 to 255 give 0. -/
def aluShl (x y : Byte) : Byte := trunc8 (x.toNat * 2 ^ y.toNat)

/-- R119: logical, the whole register is the count. -/
def aluShr (x y : Byte) : Byte := trunc8 (x.toNat / 2 ^ y.toNat)

/-- R120, for a divisor that is not 0. -/
def aluMod (x y : Byte) : Byte := trunc8 (x.toNat % y.toNat)

/-- `register-A := op(register-A, register-B)` (R110). -/
def State.aluBinary (s : State) (f : Byte → Byte → Byte) (a b : Reg) : State :=
  s.setReg a (f (s.sources a b).1 (s.sources a b).2)

/-- ADD (R111). -/
def execAdd (a b : Reg) (s : State) : Host.Outcome State Fault Refusal :=
  s.finish .add (.ok (s.aluBinary aluAdd a b))

/-- MUL (R112). -/
def execMul (a b : Reg) (s : State) : Host.Outcome State Fault Refusal :=
  s.finish .mul (.ok (s.aluBinary aluMul a b))

/-- CMP (R113): writes the flags and no register. -/
def execCmp (a b : Reg) (s : State) : Host.Outcome State Fault Refusal :=
  s.finish .cmp (.ok (s.setFlags (Flags.compare (s.sources a b).1 (s.sources a b).2)))

/-- AND (R114). -/
def execAnd (a b : Reg) (s : State) : Host.Outcome State Fault Refusal :=
  s.finish .and (.ok (s.aluBinary aluAnd a b))

/-- OR (R115). -/
def execOr (a b : Reg) (s : State) : Host.Outcome State Fault Refusal :=
  s.finish .or (.ok (s.aluBinary aluOr a b))

/-- XOR (R116). -/
def execXor (a b : Reg) (s : State) : Host.Outcome State Fault Refusal :=
  s.finish .xor (.ok (s.aluBinary aluXor a b))

/-- NOT (R117): one operand. -/
def execNot (a : Reg) (s : State) : Host.Outcome State Fault Refusal :=
  s.finish .not (.ok (s.setReg a (aluNot (s.reg a))))

/-- SHL (R118). -/
def execShl (a b : Reg) (s : State) : Host.Outcome State Fault Refusal :=
  s.finish .shl (.ok (s.aluBinary aluShl a b))

/-- SHR (R119). -/
def execShr (a b : Reg) (s : State) : Host.Outcome State Fault Refusal :=
  s.finish .shr (.ok (s.aluBinary aluShr a b))

/-- MOD (R120): a zero divisor raises DivisionByZero before any write. -/
def execMod (a b : Reg) (s : State) : Host.Outcome State Fault Refusal :=
  s.finish .mod <|
    if s.reg b = 0#8 then .error (.divisionByZero s.pc b) else .ok (s.aluBinary aluMod a b)

end Sys2Proof.Machine
end

