-- ==== Sys2Proof/Machine/Jump.lean ====
section
/-!
DEFINITION. The jump instructions (42_control_flow.md R160 to R163). Their PC-control bit is set, so they write `pc` on
every path, the jump not taken included.
-/

namespace Sys2Proof.Machine

/-- `pc <- x[a]` when `c` holds, else `pc <- pc + 2`, past the jump and its operand byte (R160). -/
def State.branch (s : State) (c : Bool) (a : Reg) : State :=
  if c then s.jump (s.target a) else { s with pc := s.pc + 2 }

/-- JMP (R161). -/
def execJmp (a : Reg) (s : State) : Host.Outcome State Fault Refusal :=
  s.finish .jmp (.ok (s.jump (s.target a)))

/-- JEQ (R162). -/
def execJeq (a : Reg) (s : State) : Host.Outcome State Fault Refusal :=
  s.finish .jeq (.ok (s.branch s.fl.equal a))

/-- JNE (R163). -/
def execJne (a : Reg) (s : State) : Host.Outcome State Fault Refusal :=
  s.finish .jne (.ok (s.branch (!s.fl.equal) a))

end Sys2Proof.Machine
end

