-- ==== Sys2Proof/Machine/Stack.lean ====
section
/-!
DEFINITION. The stack instructions (41_stack.md R144 to R147).
-/

namespace Sys2Proof.Machine

/-- PUSH (R144): the source is read after the decrement, so PUSH R7 writes the new SP. -/
def execPush (a : Reg) (s : State) : Host.Outcome State Fault Refusal :=
  s.finish .push (s.push fun t => t.reg a)

/-- POP (R145): the register is written first and SP, as it then stands, goes up; so POP R7 leaves the byte plus 1. -/
def execPop (a : Reg) (s : State) : Host.Outcome State Fault Refusal :=
  s.finish .pop (s.setReg a s.top).incSp

/-- The address after a CALL and its operand byte (R146). The step hands CALL only a `pc` of at most 253, so it fits the byte;
elsewhere it is cut to 8 bits. DESIGN CHOICE (log entry 19). -/
def State.returnAddress (s : State) : Byte := trunc8 (s.pc + 2)

/-- CALL (R146): the return address is pushed, then `pc` takes the register as it stands after the push. -/
def execCall (a : Reg) (s : State) : Host.Outcome State Fault Refusal :=
  s.finish .call <|
    match s.push (fun _ => s.returnAddress) with
    | .error k => .error k
    | .ok t => .ok (t.jump (t.target a))

/-- RET (R147). -/
def execRet (s : State) : Host.Outcome State Fault Refusal :=
  s.finish .ret <|
    match s.incSp with
    | .error k => .error k
    | .ok t => .ok (t.jump s.top)

end Sys2Proof.Machine
end

