-- ==== Sys2Proof/Machine/System.lean ====
section
/-!
DEFINITION. Print, halt and load-immediate (43_print_halt_load.md R180 to R182).
-/

namespace Sys2Proof.Machine

/-- PRN (R180). -/
def execPrn (a : Reg) (s : State) : Host.Outcome State Fault Refusal :=
  s.finish .prn (.ok (s.emit (s.reg a)))

/-- HLT (R181): the cycle still moves `pc` past it (30_encoding.md R95). -/
def execHlt (s : State) : Host.Outcome State Fault Refusal :=
  s.finish .hlt (.ok s.haltNormally)

/-- LDI (R182). -/
def execLdi (a : Reg) (imm : Byte) (s : State) : Host.Outcome State Fault Refusal :=
  s.finish .ldi (.ok (s.setReg a (immValue imm)))

end Sys2Proof.Machine
end

