-- ==== Sys2Proof/Machine/Fetch.lean ====
section
/-!
DEFINITION. Fetching and decoding at `pc` with the checks in the order of 30_encoding.md R90 and 60_exceptions.md R205, one
pass of the execution cycle over them, and the placing of an instruction where the next step fetches it.
-/

namespace Sys2Proof.Machine

/-- The fault record of a decoder's rejection at `pc` (R201). -/
def decodeFault (pc : Nat) : DecodeError → FaultRecord
  | .unknownOpcode op => .unknownOpcode op pc
  | .badRegister op pos v => .badRegister op pc pos v

/-- The first address of the operand window that is out of range, if any (R92). -/
def windowFault (p : Nat) : Option FaultRecord :=
  if 255 < p + 1 then some (.boundsViolation .operandFetch (p + 1) p)
  else if 255 < p + 2 then some (.boundsViolation .operandFetch (p + 2) p)
  else none

/-- Decodes the operands once the operation is known, reading both operand bytes first (R90, R92, R93). -/
def State.fetchOperands (s : State) (m : Mnemonic) (op : Byte) : Except FaultRecord Instr :=
  match windowFault s.pc with
  | some k => .error k
  | none =>
    match decodeOperands m op (s.mem.read (s.pc + 1)) (s.mem.read (s.pc + 2)) with
    | .error e => .error (decodeFault s.pc e)
    | .ok i => .ok i

/-- The instruction at `pc`, or the first check that fails: the opcode fetch (R91), the opcode (R83), the operand window (R92),
the register operands (R77). It writes nothing (R80). -/
def State.fetch (s : State) : Except FaultRecord Instr :=
  if 255 < s.pc then .error (.boundsViolation .opcodeFetch s.pc s.pc)
  else
    match decodeOpcode (s.mem.read s.pc) with
    | none => .error (.unknownOpcode (s.mem.read s.pc) s.pc)
    | some m => s.fetchOperands m (s.mem.read s.pc)

/-- One pass of the execution cycle with `run` as the operation (R90): a failed check is raised (R96), no pass is made once
the core is halted (R213). -/
def State.cycle (s : State) (run : Instr → State → Host.Outcome State Fault Refusal) :
    Host.Outcome State Fault Refusal :=
  match s.status with
  | .halted r => .fault (.halted r)
  | .running =>
    match s.fetch with
    | .error k => .next (s.raise k)
    | .ok i => run i s

/-- The state with the three bytes of an instruction word placed at `pc`; a byte that would fall outside the memory
is not placed. -/
def State.placeWord (s : State) (nbits w : Nat) : State :=
  { s with
    mem := s.mem.writeList s.pc
      (([0, 1, 2].map (tableByte nbits w)).take (Config.memSize - s.pc)) }

end Sys2Proof.Machine
end

