-- ==== Sys2Proof/Machine/Step.lean ====
section
/-!
DEFINITION. One step of the core (30_encoding.md R90).
-/

namespace Sys2Proof.Machine

/-- `Step(s)` of R90. -/
def step (s : State) : Host.Outcome State Fault Refusal := s.cycle exec

/-- `s` with the instruction whose bits are `w` stored at `pc`, where `step` fetches its next instruction (R26); `nbits` is how
many bits the opcode table gives its row. Log entry 1 says how a program comes to be in memory. -/
def State.withFetchWord (s : State) (nbits w : Nat) : State := s.placeWord nbits w

end Sys2Proof.Machine
end

