-- ==== Sys2Proof/Machine/Boot.lean ====
section
/-!
DEFINITION. The image input: what the core receives before its first step (00_scope.md R9, 70_reset_and_hazards.md R230 to R235).
-/

namespace Sys2Proof.Machine

/-- The state a run starts from when `image` is handed in: reset, with the image from address 0 on (R230, R231). An image of
more than 256 bytes is refused and the core does not start (R235). -/
def State.boot (image : List Byte) : Host.Outcome State Fault Refusal :=
  if Config.memSize < image.length then .refused (.imageTooLong image.length)
  else .next { State.reset with mem := State.reset.mem.writeList Config.imageStart image }

end Sys2Proof.Machine
end

