-- ==== Sys2Proof/Machine/Text.lean ====
section
/-!
DEFINITION. What a host shows of the core: the text of an output event (43_print_halt_load.md R180), the cause code and the pattern
of a fault (60_exceptions.md R201, R202), and the assembler spelling of an instruction (30_encoding.md R100). Nothing here is
read by a step.
-/

namespace Sys2Proof.Machine

/-- The character of a decimal digit. -/
def digitChar (d : Nat) : Char := Char.ofNat (48 + d)

/-- The value of a byte in decimal: no sign, no leading zero, no padding (R180). -/
def decimalText (v : Byte) : List Char :=
  let n := v.toNat
  if n < 10 then [digitChar n]
  else if n < 100 then [digitChar (n / 10), digitChar (n % 10)]
  else [digitChar (n / 100), digitChar (n / 10 % 10), digitChar (n % 10)]

/-- One output event as a line of text (R180). DESIGN CHOICE (log entry 18): the line end is the newline character. -/
def renderEvent (v : Byte) : List Char := decimalText v ++ ['\n']

/-- The output stream as text, one line per event. -/
def renderOutput (out : List Byte) : List Char := out.flatMap renderEvent

/-- The cause code of a fault (R201). -/
def FaultRecord.code : FaultRecord → Nat
  | .unknownOpcode _ _ => 1
  | .badRegister _ _ _ _ => 2
  | .boundsViolation _ _ _ => 3
  | .divisionByZero _ _ => 4
  | .unsupportedAluOp => 5

/-- The address a fault record names, which is the faulting instruction's (R201). -/
def FaultRecord.pc? : FaultRecord → Option Nat
  | .unknownOpcode _ pc => some pc
  | .badRegister _ pc _ _ => some pc
  | .boundsViolation _ _ pc => some pc
  | .divisionByZero pc _ => some pc
  | .unsupportedAluOp => none

/-- A byte as 8 binary digits, most significant bit first (R202). -/
def binaryText (v : Byte) : List Char :=
  [7, 6, 5, 4, 3, 2, 1, 0].map fun i => if v.getLsbD i then '1' else '0'

/-- `R0` to `R7` (R100). -/
def regText (r : Reg) : List Char := ['R', digitChar r.val]

/-- The assembler spelling of an instruction (R100). -/
def asmText : Instr → List Char
  | .hlt => ['H', 'L', 'T']
  | .ret => ['R', 'E', 'T']
  | .push a => ['P', 'U', 'S', 'H', ' '] ++ regText a
  | .pop a => ['P', 'O', 'P', ' '] ++ regText a
  | .prn a => ['P', 'R', 'N', ' '] ++ regText a
  | .call a => ['C', 'A', 'L', 'L', ' '] ++ regText a
  | .jmp a => ['J', 'M', 'P', ' '] ++ regText a
  | .jeq a => ['J', 'E', 'Q', ' '] ++ regText a
  | .jne a => ['J', 'N', 'E', ' '] ++ regText a
  | .not a => ['N', 'O', 'T', ' '] ++ regText a
  | .ldi a imm => ['L', 'D', 'I', ' '] ++ regText a ++ [','] ++ decimalText imm
  | .add a b => ['A', 'D', 'D', ' '] ++ regText a ++ [','] ++ regText b
  | .mul a b => ['M', 'U', 'L', ' '] ++ regText a ++ [','] ++ regText b
  | .mod a b => ['M', 'O', 'D', ' '] ++ regText a ++ [','] ++ regText b
  | .cmp a b => ['C', 'M', 'P', ' '] ++ regText a ++ [','] ++ regText b
  | .and a b => ['A', 'N', 'D', ' '] ++ regText a ++ [','] ++ regText b
  | .or a b => ['O', 'R', ' '] ++ regText a ++ [','] ++ regText b
  | .xor a b => ['X', 'O', 'R', ' '] ++ regText a ++ [','] ++ regText b
  | .shl a b => ['S', 'H', 'L', ' '] ++ regText a ++ [','] ++ regText b
  | .shr a b => ['S', 'H', 'R', ' '] ++ regText a ++ [','] ++ regText b

end Sys2Proof.Machine
end

