-- ==== Sys2Proof/Safety.lean ====
section
/-!
DEFINITION. What counts as a safe run, in the terms the statements use: the invariant of the state, the states a run
reaches, and what it means that an instruction leaves a part of the state alone.
-/

namespace Sys2Proof.Machine

/-- A halted core that faulted stands at the instruction its record names (60_exceptions.md R201, R203). -/
def State.FaultAtPc (s : State) : Prop :=
  ∀ k, s.status = .halted (.fault k) → k.pc? = some s.pc

/-- The invariant of every run: memory in its canonical form inside the address space (20_memory.md R50), `pc` 0 to 256
(10_state.md R27), at most one flag set (R34), and a faulted core at its faulting instruction. -/
structure State.Inv (s : State) : Prop where
  mem : s.mem.wf
  pc : s.pc ≤ 256
  fl : s.fl.legal = true
  fault : s.FaultAtPc

/-- `t` is reached from `s` by steps. -/
inductive Reaches (s : State) : State → Prop where
  | start : Reaches s s
  | next {t u : State} : Reaches s t → step t = .next u → Reaches s u

/-- A run that ended without a fault (60_exceptions.md R216). -/
def State.haltedNormally (s : State) : Bool := s.status == .halted .hlt

/-- Every byte of memory reads in `t` as in `s`. -/
def SameMemory (s t : State) : Prop := ∀ addr, t.mem.read addr = s.mem.read addr

/-- Every byte of memory but the one at `at_` reads in `t` as in `s`. -/
def SameMemoryBut (s t : State) (at_ : Nat) : Prop :=
  ∀ addr, addr ≠ at_ → t.mem.read addr = s.mem.read addr

/-- Every register outside `ws` holds in `t` what it held in `s`. -/
def SameRegsBut (s t : State) (ws : List Reg) : Prop := ∀ r, r ∉ ws → t.reg r = s.reg r

/-- Flags, run status and output are in `t` what they were in `s`. -/
def SameControl (s t : State) : Prop := t.fl = s.fl ∧ t.status = s.status ∧ t.out = s.out

/-- The instruction completes from `s` with `v` in register `a` and `pc` moved on by `len`, and changes nothing else. -/
def WritesReg (i : Instr) (s : State) (a : Reg) (v len : Nat) : Prop :=
  ∃ t, exec i s = .next t ∧ (t.reg a).toNat = v ∧ t.pc = s.pc + len ∧
    SameRegsBut s t [a] ∧ SameMemory s t ∧ SameControl s t

/-- The instruction completes from `s` with `pc` at `p`, and changes nothing else. -/
def WritesPc (i : Instr) (s : State) (p : Nat) : Prop :=
  ∃ t, exec i s = .next t ∧ t.pc = p ∧ SameRegsBut s t [] ∧ SameMemory s t ∧ SameControl s t

/-- The instruction raises `k` from `s`: the status records it and nothing else changes (60_exceptions.md R203). -/
def Raises (i : Instr) (s : State) (k : FaultRecord) : Prop :=
  exec i s = .next { s with status := .halted (.fault k) }

end Sys2Proof.Machine
end

