-- ==== Sys2Proof/Certificates/Slice0/Obligations.lean ====
section
/-!
DEFINITION. The statements for the provers. Each docstring names the rule of spec/ the statement rests on and, where the
rule carries one of the spec's own decisions (92_eei_decisions.md) or a choice of the model, the decision or the log entry.
-/

open Sys2Proof Sys2Proof.Machine

/-! ### Decoding and encoding -/

/-- Decoding undoes encoding, whatever bytes follow in memory: an operand byte that the instruction does not use has no effect
(30_encoding.md R70, R76, R77, R79). -/
def Obligations.DecodeOfEncodeIsInstruction : Prop :=
  ∀ (i : Instr) (rest : List Byte),
    decode (windowOf i rest).1 (windowOf i rest).2.1 (windowOf i rest).2.2 = .ok i

/-- What decodes is an encoding: the bytes the decoder accepts begin with the encoding of what it answers, so no two
instructions share a word (R70, R82). -/
def Obligations.AcceptedBytesAreAnEncoding : Prop :=
  ∀ (op a b : Byte) (i : Instr), decode op a b = .ok i → ∃ rest, encode i ++ rest = [op, a, b]

/-- The decoder answers 'unknown opcode', with the byte itself, for exactly the bytes outside the 20 of the table (R75, R83,
R84). The 20 values are the spec's decision D1. -/
def Obligations.UnknownOpcodesAreExactlyTheOthers : Prop :=
  ∀ (op a b : Byte),
    (decode op a b = .error (.unknownOpcode op) ↔
      op ∉ [0x01#8, 0x11#8, 0x45#8, 0x46#8, 0x47#8, 0x50#8, 0x54#8, 0x55#8, 0x56#8, 0x69#8,
            0x82#8, 0xA0#8, 0xA2#8, 0xA4#8, 0xA7#8, 0xA8#8, 0xAA#8, 0xAB#8, 0xAC#8, 0xAD#8]) ∧
    ∀ op', decode op a b = .error (.unknownOpcode op') → op' = op

/-- The opcode map meets R8's constraints: it is injective, bits 7:6 are the number of operand bytes (R71), bit 4 is set
exactly for CALL, RET, JMP, JEQ and JNE (R72), bit 5 exactly for the ALU operations (R73), and the length read from the opcode
is that of the encoding (R74). The values are the spec's decision D1. -/
def Obligations.OpcodeMapMeetsItsConstraints : Prop :=
  (∀ m m' : Mnemonic, opcodeOf m = opcodeOf m' → m = m') ∧
  ∀ i : Instr,
    operandCount i.opcode = i.operandBytes.length ∧
    lengthOf i.opcode = (encode i).length ∧
    (pcControl i.opcode = true ↔ i.mnemonic ∈ [.call, .ret, .jmp, .jeq, .jne]) ∧
    (i.opcode.getLsbD 5 = true ↔
      i.mnemonic ∈ [.add, .mul, .mod, .cmp, .and, .or, .xor, .shl, .shr, .not])

/-- Words written out from the encodings of R75 and R76 decode to the instructions they stand for: bytes of programs P2 and P6
of 95_test_vectors.md, and its vectors V-D15 and V-D16. -/
def Obligations.SpecWordsDecode : Prop :=
  decode 0x82 0x00 0x07 = .ok (.ldi 0 7) ∧ decode 0xA7 0x00 0x01 = .ok (.cmp 0 1) ∧
  decode 0x55 0x02 0x47 = .ok (.jeq 2) ∧ decode 0x47 0x00 0x01 = .ok (.prn 0) ∧
  decode 0x01 0x47 0x01 = .ok .hlt ∧ decode 0x11 0xFF 0xFF = .ok .ret ∧
  decode 0x69 0x01 0xFF = .ok (.not 1) ∧ decode 0xAC 0x00 0x01 = .ok (.shl 0 1)

/-- The operand check: for each of the 20 operations, the first ill-formed register byte is rejected by name, `a` before `b`,
and well-formed operand bytes decode to an instruction of that operation (R76, R77, R78, R79). That the whole byte is the
index is the spec's decision D3. -/
def Obligations.OperandBytesAreCheckedInOrder : Prop :=
  ∀ (m : Mnemonic) (a b : Byte),
    (∀ pos v, m.badOperand a b = some (pos, v) →
      decode (opcodeOf m) a b = .error (.badRegister (opcodeOf m) pos v)) ∧
    (m.wellFormed a b = true → ∃ i, decode (opcodeOf m) a b = .ok i ∧ i.mnemonic = m)

/-! ### The execution cycle -/

/-- A step runs the decoded instruction: when the core runs, the operand window is in range and the three bytes at `pc`
decode to `i`, the step is the meaning of `i`, with nothing added around it (30_encoding.md R90, R92, R93). -/
def Obligations.StepRunsDecodedInstruction : Prop :=
  ∀ (s : State) (i : Instr), s.status = .running → s.pc ≤ 253 →
    decode (s.mem.read s.pc) (s.mem.read (s.pc + 1)) (s.mem.read (s.pc + 2)) = .ok i →
    step s = exec i s

/-- The engine takes a next step whenever the status is Running, and no step at all once it is Halted (R90, 60_exceptions.md
R213, 70_reset_and_hazards.md R244). That the step of a halted core is answered by the outcome 'fault' with the reason is the
model's choice (log entry 2). -/
def Obligations.StepsExactlyWhileRunning : Prop :=
  ∀ s : State, ((∃ t, step s = .next t) ↔ s.status = .running) ∧
    ∀ r, s.status = .halted r → step s = .fault (.halted r)

/-- Every instruction answers a next state from every state: a fault of the spec is a next state, and there is no other
stop (30_encoding.md R85, 60_exceptions.md R200, R209). That a fault is a next state is the model's reading (log entry 2). -/
def Obligations.EveryInstructionAnswersNext : Prop :=
  ∀ (i : Instr) (s : State), ∃ t, exec i s = .next t

/-- The checks before an operation, in the order of R205 items 1 to 4: opcode fetch, unknown opcode, operand window, register
operands. The order is the spec's decision D11, the checks its decisions D3, D4 and D5. -/
def Obligations.FetchChecksInOrder : Prop :=
  ∀ s : State, s.status = .running →
    (255 < s.pc → step s = .next (s.raise (.boundsViolation .opcodeFetch s.pc s.pc))) ∧
    (s.pc ≤ 255 → s.mem.read s.pc ∉ opcodes →
      step s = .next (s.raise (.unknownOpcode (s.mem.read s.pc) s.pc))) ∧
    (253 < s.pc → s.pc ≤ 255 → s.mem.read s.pc ∈ opcodes →
      step s = .next (s.raise (.boundsViolation .operandFetch 256 s.pc))) ∧
    (s.pc ≤ 253 → ∀ m pos v, s.mem.read s.pc = opcodeOf m →
      m.badOperand (s.mem.read (s.pc + 1)) (s.mem.read (s.pc + 2)) = some (pos, v) →
      step s = .next (s.raise (.badRegister (opcodeOf m) s.pc pos v)))

/-- A raise anywhere in a step is precise: the status records the fault and nothing else of the state differs; `pc` and
the output with it (30_encoding.md R96, 60_exceptions.md R203). That a fault is precise is the spec's decision D10 (log
entry 11). -/
def Obligations.FaultsArePrecise : Prop :=
  ∀ (s t : State) (k : FaultRecord), step s = .next t → t.status = .halted (.fault k) →
    t = { s with status := .halted (.fault k) }

/-- Each fault comes from its own cause (60_exceptions.md R201): what a step that ends in a fault says of the state it
began in. The kinds and records are the spec's decision D9; UnsupportedAluOp is raised by nothing (R121). -/
def Obligations.FaultsHaveTheirCause : Prop :=
  ∀ (s t : State) (k : FaultRecord), step s = .next t → t.status = .halted (.fault k) →
    match k with
    | .unknownOpcode op pc => pc = s.pc ∧ op = s.mem.read s.pc ∧ op ∉ opcodes
    | .badRegister op pc pos v =>
      pc = s.pc ∧ op = s.mem.read s.pc ∧ op ∈ opcodes ∧ op ≠ opcodeOf .hlt ∧ op ≠ opcodeOf .ret ∧
      8 ≤ v.toNat ∧ v = s.mem.read (match pos with | .a => s.pc + 1 | .b => s.pc + 2)
    | .boundsViolation .opcodeFetch addr pc => pc = s.pc ∧ addr = s.pc ∧ 255 < s.pc
    | .boundsViolation .operandFetch addr pc => pc = s.pc ∧ addr = 256 ∧ (s.pc = 254 ∨ s.pc = 255)
    | .boundsViolation .stackPush addr pc =>
      pc = s.pc ∧ addr = -1 ∧ s.sp = 0#8 ∧ s.mem.read s.pc ∈ [opcodeOf .push, opcodeOf .call]
    | .boundsViolation .stackPop addr pc =>
      pc = s.pc ∧ addr = 256 ∧ s.mem.read s.pc ∈ [opcodeOf .pop, opcodeOf .ret] ∧
      (s.sp = 255#8 ∨ (s.mem.read s.pc = opcodeOf .pop ∧ s.mem.read (s.pc + 1) = 7#8 ∧
        s.mem.read s.sp.toNat = 255#8))
    | .divisionByZero pc b =>
      pc = s.pc ∧ s.reg b = 0#8 ∧ s.mem.read s.pc = opcodeOf .mod ∧
      regByte b = s.mem.read (s.pc + 2)
    | .unsupportedAluOp => False

/-- The PC-advance rule in the opcode's own bits, for an operation that raised nothing: if the PC-control bit is clear, `pc`
has moved by 1 plus the operand count; if it is set, the operation wrote it, CALL, RET and JMP to the target, JEQ and JNE to
the target or to `p + 2` (30_encoding.md R94). The targets are those of 41_stack.md R146 and R147 and 42_control_flow.md R161 to
R163; that CALL R7 goes to the register as it stands after the push is the spec's decision D26 (log entry 17). -/
def Obligations.PcAdvanceFollowsOpcodeBits : Prop :=
  ∀ (i : Instr) (s t : State), exec i s = .next t → (∀ k, t.status ≠ .halted (.fault k)) →
    (pcControl i.opcode = false → t.pc = s.pc + 1 + operandCount i.opcode) ∧
    (pcControl i.opcode = true →
      match i with
      | .ret => t.pc = (s.mem.read s.sp.toNat).toNat
      | .call a => t.pc = (t.reg a).toNat
      | .jmp a => t.pc = (s.reg a).toNat
      | .jeq a => t.pc = (s.reg a).toNat ∨ t.pc = s.pc + 2
      | .jne a => t.pc = (s.reg a).toNat ∨ t.pc = s.pc + 2
      | _ => False)

/-- The operand latch: a PUSH or CALL that writes over its own operand byte uses the operand it was fetched with
(30_encoding.md R93). The words are those of R75 and R76 (the spec's decisions D1 and D17). -/
def Obligations.OwnOperandByteIsLatched : Prop :=
  ∀ (s : State) (a : Reg), s.mem.wf → s.status = .running → s.pc ≤ 253 →
    s.sp.toNat = s.pc + 2 → a ≠ 7 →
    s.mem.read (s.pc + 1) = regByte a →
    (s.mem.read s.pc = 0x45#8 →
      ∃ t, step s = .next t ∧ t.mem.read (s.pc + 1) = s.reg a ∧ t.pc = s.pc + 2) ∧
    (s.mem.read s.pc = 0x50#8 →
      ∃ t, step s = .next t ∧ (t.mem.read (s.pc + 1)).toNat = s.pc + 2 ∧ t.pc = (s.reg a).toNat)

/-! ### What each instruction leaves alone -/

/-- The registers an instruction may write, all other registers keeping their values (10_state.md R25): `x[a]` for LDI
and the ALU instructions, nothing for CMP, `x[7]` for PUSH, CALL and RET, `x[a]` and `x[7]` for POP, nothing for the others. -/
def Obligations.RegisterWriters : Prop :=
  ∀ (i : Instr) (s t : State), exec i s = .next t →
    SameRegsBut s t
      (match i with
       | .ldi a _ | .not a => [a]
       | .add a _ | .mul a _ | .and a _ | .or a _ | .xor a _ | .shl a _ | .shr a _ | .mod a _ => [a]
       | .cmp _ _ => []
       | .push _ | .call _ | .ret => [7]
       | .pop a => [a, 7]
       | .jmp _ | .jeq _ | .jne _ | .prn _ | .hlt => [])

/-- The flags are set only by CMP, which writes all three bits, exactly one of them set, whatever they held before; every
other instruction keeps them; and only JEQ and JNE read them: any other instruction does the same whatever the flags hold
(10_state.md R31). -/
def Obligations.FlagsAreWrittenByCmpAndReadByJumps : Prop :=
  (∀ (i : Instr) (s t : State), exec i s = .next t → (∀ a b, i ≠ .cmp a b) → t.fl = s.fl) ∧
  (∀ (a b : Reg) (s t : State), exec (.cmp a b) s = .next t →
    t.fl ∈ [⟨true, false, false⟩, ⟨false, true, false⟩, ⟨false, false, true⟩] ∧
    ∀ f, exec (.cmp a b) { s with fl := f } = .next t) ∧
  (∀ (i : Instr) (s t : State) (f : Flags), exec i s = .next t → (∀ a, i ≠ .jeq a) → (∀ a, i ≠ .jne a) →
    ∃ g, exec i { s with fl := f } = .next { t with fl := g })

/-- Less and Greater are read by no instruction: two states that differ in them alone step alike, up to those two bits
(10_state.md R32, 42_control_flow.md R164). -/
def Obligations.LessAndGreaterAreNeverRead : Prop :=
  ∀ (s t : State) (l g : Bool), step s = .next t →
    ∃ l' g', step { s with fl := { s.fl with l := l, g := g } } =
      .next { t with fl := { t.fl with l := l', g := g' } }

/-- Memory is written by PUSH and CALL alone, and by them only at the cell below the stack pointer, the address the push
primitive stores to: no other byte of memory changes under any instruction (20_memory.md R51, 41_stack.md R142). -/
def Obligations.MemoryWriters : Prop :=
  ∀ (i : Instr) (s t : State), exec i s = .next t →
    match i with
    | .push _ | .call _ => SameMemoryBut s t (s.sp.toNat - 1)
    | _ => SameMemory s t

/-- The output stream is the values PRN prints, in execution order: PRN appends its register, no other instruction writes it,
no instruction reads it (whatever the stream holds, the rest of the next state is the same), and it is empty at reset
(10_state.md R38). -/
def Obligations.OutputIsAppendedByPrnAndNeverRead : Prop :=
  (∀ (i : Instr) (s t : State), exec i s = .next t →
    t.out = s.out ++ (match i with | .prn a => [s.reg a] | _ => [])) ∧
  (∀ (i : Instr) (s t : State) (o : List Byte), exec i s = .next t →
    ∃ u, exec i { s with out := o } = .next u ∧ { u with out := t.out } = t) ∧
  State.reset.out = []

/-- The run status is written by HLT and by the fault mechanism alone: of the operations, MOD, PUSH, POP, CALL and RET may
raise, and a step ends in the normal halt exactly when it runs a HLT. No instruction reads the status, and it is Running at
reset (10_state.md R37). That a HLT runs at an address of at most 253 only is the spec's decision D4 (log entry 6); that `exec`
does the same under every status, the halted ones included, is the model's choice (log entry 20). -/
def Obligations.StatusIsWrittenByHltAndFaults : Prop :=
  (∀ (i : Instr) (s t : State), exec i s = .next t →
    match i with
    | .hlt => t.status = .halted .hlt
    | .mod _ _ | .push _ | .pop _ | .call _ | .ret =>
      t.status = s.status ∨ ∃ k, t.status = .halted (.fault k)
    | _ => t.status = s.status) ∧
  (∀ (i : Instr) (s t : State) (st : Status), exec i s = .next t →
    ∃ u, exec i { s with status := st } = .next u ∧ { u with status := t.status } = t) ∧
  (∀ s t : State, step s = .next t →
    (t.status = .halted .hlt ↔ s.pc ≤ 253 ∧ s.mem.read s.pc = opcodeOf .hlt)) ∧
  State.reset.status = .running

/-- How each instruction advances `pc`, its PC-control bit beside it, when it raises nothing (10_state.md R28). -/
def Obligations.PcAdvanceTable : Prop :=
  ∀ (i : Instr) (s t : State), exec i s = .next t → (∀ k, t.status ≠ .halted (.fault k)) →
    match i with
    | .hlt => pcControl i.opcode = false ∧ t.pc = s.pc + 1
    | .prn _ | .push _ | .pop _ | .not _ => pcControl i.opcode = false ∧ t.pc = s.pc + 2
    | .ldi _ _ | .add _ _ | .mul _ _ | .cmp _ _ | .and _ _ | .or _ _ | .xor _ _ | .shl _ _
    | .shr _ _ | .mod _ _ => pcControl i.opcode = false ∧ t.pc = s.pc + 3
    | .call a => pcControl i.opcode = true ∧ t.pc = (t.reg a).toNat
    | .ret => pcControl i.opcode = true ∧ t.pc = (s.mem.read s.sp.toNat).toNat
    | .jmp a => pcControl i.opcode = true ∧ t.pc = (s.reg a).toNat
    | .jeq a => pcControl i.opcode = true ∧
        t.pc = if s.fl.e = true then (s.reg a).toNat else s.pc + 2
    | .jne a => pcControl i.opcode = true ∧
        t.pc = if s.fl.e = false then (s.reg a).toNat else s.pc + 2

/-! ### The ALU instructions -/

/-- ADD: the sum modulo 256, no flag, `pc` by 3, nothing else (40_alu.md R110, R111; the wrap is the spec's decision D2). -/
def Obligations.AddWritesSum : Prop :=
  ∀ (a b : Reg) (s : State),
    WritesReg (.add a b) s a (((s.reg a).toNat + (s.reg b).toNat) % 256) 3

/-- MUL: the low 8 bits of the product (R110, R112; decision D2). -/
def Obligations.MulWritesLowProduct : Prop :=
  ∀ (a b : Reg) (s : State),
    WritesReg (.mul a b) s a (((s.reg a).toNat * (s.reg b).toNat) % 256) 3

/-- AND, bit by bit (R110, R114). -/
def Obligations.AndWritesBitwiseAnd : Prop :=
  ∀ (a b : Reg) (s : State),
    WritesReg (.and a b) s a (s.reg a &&& s.reg b).toNat 3

/-- OR, bit by bit (R110, R115). -/
def Obligations.OrWritesBitwiseOr : Prop :=
  ∀ (a b : Reg) (s : State),
    WritesReg (.or a b) s a (s.reg a ||| s.reg b).toNat 3

/-- XOR, bit by bit, and XOR of a register with itself gives 0 (R110, R116). -/
def Obligations.XorWritesBitwiseXor : Prop :=
  ∀ (a b : Reg) (s : State),
    WritesReg (.xor a b) s a (s.reg a ^^^ s.reg b).toNat 3 ∧ WritesReg (.xor a a) s a 0 3

/-- NOT: the 8-bit complement, which is the bitwise complement, with `pc` by 2; twice restores the value (R117; decision D2). -/
def Obligations.NotWritesComplement : Prop :=
  ∀ (a : Reg) (s : State),
    WritesReg (.not a) s a (255 - (s.reg a).toNat) 2 ∧ 255 - (s.reg a).toNat = (~~~ s.reg a).toNat ∧
    ∀ t, exec (.not a) s = .next t → WritesReg (.not a) t a (s.reg a).toNat 2

/-- SHL: the low 8 bits of `x[a] * 2^x[b]` with the whole register as the count, so a count of 8 or more gives 0 (R118; decisions
D2 and D14). -/
def Obligations.ShlShiftsByWholeRegister : Prop :=
  ∀ (a b : Reg) (s : State),
    WritesReg (.shl a b) s a ((s.reg a).toNat * 2 ^ (s.reg b).toNat % 256) 3 ∧
    (8 ≤ (s.reg b).toNat → WritesReg (.shl a b) s a 0 3)

/-- SHR: `floor(x[a] / 2^x[b])` with the whole register as the count, so a count of 8 or more gives 0 (R119; decision D14). -/
def Obligations.ShrShiftsByWholeRegister : Prop :=
  ∀ (a b : Reg) (s : State),
    WritesReg (.shr a b) s a ((s.reg a).toNat / 2 ^ (s.reg b).toNat) 3 ∧
    (8 ≤ (s.reg b).toNat → WritesReg (.shr a b) s a 0 3)

/-- MOD with a divisor that is not 0: the remainder, below the divisor (R120). -/
def Obligations.ModWritesRemainder : Prop :=
  ∀ (a b : Reg) (s : State), s.reg b ≠ 0#8 →
    WritesReg (.mod a b) s a ((s.reg a).toNat % (s.reg b).toNat) 3

/-- MOD with divisor 0 raises DivisionByZero with the divisor's register, and writes nothing (R120; decision D13). -/
def Obligations.ModByZeroRaises : Prop :=
  ∀ (a b : Reg) (s : State), s.reg b = 0#8 → Raises (.mod a b) s (.divisionByZero s.pc b)

/-- CMP: Less, Greater and Equal from the unsigned comparison, no register written, `pc` by 3 (R113; decision D15). -/
def Obligations.CmpSetsUnsignedOrder : Prop :=
  ∀ (a b : Reg) (s : State), ∃ t, exec (.cmp a b) s = .next t ∧
    (t.fl.l = true ↔ (s.reg a).toNat < (s.reg b).toNat) ∧
    (t.fl.g = true ↔ (s.reg b).toNat < (s.reg a).toNat) ∧
    (t.fl.e = true ↔ s.reg a = s.reg b) ∧
    t.pc = s.pc + 3 ∧ SameRegsBut s t [] ∧ SameMemory s t ∧ t.status = s.status ∧ t.out = s.out

/-! ### The stack instructions -/

/-- PUSH, SP not 0: SP goes down by 1 and the source register as it then stands, the new SP for R7, is at the new SP; `pc` by 2
(41_stack.md R142, R144; decision D26 for R7). -/
def Obligations.PushStoresBelowSp : Prop :=
  ∀ (a : Reg) (s : State), s.mem.wf → s.sp ≠ 0#8 → ∃ t, exec (.push a) s = .next t ∧
    t.sp.toNat = s.sp.toNat - 1 ∧ SameRegsBut s t [7] ∧
    t.mem.read (s.sp.toNat - 1) = (if a = 7 then t.sp else s.reg a) ∧
    SameMemoryBut s t (s.sp.toNat - 1) ∧ t.pc = s.pc + 2 ∧ SameControl s t

/-- PUSH and CALL with SP = 0 raise the StackPush bounds violation, and write nothing (R141, R144, R146; decision D12). -/
def Obligations.PushAtZeroRaises : Prop :=
  ∀ (a : Reg) (s : State), s.sp = 0#8 →
    Raises (.push a) s (.boundsViolation .stackPush (-1) s.pc) ∧
    Raises (.call a) s (.boundsViolation .stackPush (-1) s.pc)

/-- POP into R0 to R6, SP not 255: the register takes the byte at SP and SP goes up by 1; memory keeps its bytes; `pc` by 2
(R143, R145). -/
def Obligations.PopLoadsFromSp : Prop :=
  ∀ (a : Reg) (s : State), a ≠ 7 → s.sp ≠ 255#8 → ∃ t, exec (.pop a) s = .next t ∧
    t.reg a = s.mem.read s.sp.toNat ∧ t.sp.toNat = s.sp.toNat + 1 ∧ SameRegsBut s t [a, 7] ∧
    SameMemory s t ∧ t.pc = s.pc + 2 ∧ SameControl s t

/-- POP R7, the byte at SP not 255: R7 ends as that byte plus 1 (R145; decision D26). -/
def Obligations.PopIntoSpLeavesBytePlusOne : Prop :=
  ∀ s : State, s.mem.read s.sp.toNat ≠ 255#8 →
    WritesReg (.pop 7) s 7 ((s.mem.read s.sp.toNat).toNat + 1) 2

/-- POP raises the StackPop bounds violation exactly where SP, as it stands after the register is written, cannot go up, and then
writes nothing (R141, R145; decisions D12 and D26). -/
def Obligations.PopPastTopRaises : Prop :=
  ∀ (a : Reg) (s : State),
    (if a = 7 then s.mem.read s.sp.toNat = 255#8 else s.sp = 255#8) →
    Raises (.pop a) s (.boundsViolation .stackPop 256 s.pc)

/-- CALL, SP not 0 and the CALL where a step can run it: the address after the CALL and its operand is pushed, and `pc` takes the
operand register as it stands after the push, the new SP for R7 (R146; decision D26 for R7). -/
def Obligations.CallPushesReturnAddress : Prop :=
  ∀ (a : Reg) (s : State), s.mem.wf → s.sp ≠ 0#8 → s.pc ≤ 253 → ∃ t, exec (.call a) s = .next t ∧
    t.sp.toNat = s.sp.toNat - 1 ∧ SameRegsBut s t [7] ∧
    (t.mem.read (s.sp.toNat - 1)).toNat = s.pc + 2 ∧ SameMemoryBut s t (s.sp.toNat - 1) ∧
    t.pc = (if a = 7 then s.sp.toNat - 1 else (s.reg a).toNat) ∧ SameControl s t

/-- RET, SP not 255: `pc` takes the byte at SP and SP goes up by 1 (R147). -/
def Obligations.RetPopsIntoPc : Prop :=
  ∀ s : State, s.sp ≠ 255#8 → ∃ t, exec .ret s = .next t ∧
    t.pc = (s.mem.read s.sp.toNat).toNat ∧ t.sp.toNat = s.sp.toNat + 1 ∧ SameRegsBut s t [7] ∧
    SameMemory s t ∧ SameControl s t

/-- RET with SP = 255 raises the StackPop bounds violation, and writes nothing (R141, R147; decision D12). -/
def Obligations.RetPastTopRaises : Prop :=
  ∀ s : State, s.sp = 255#8 → Raises .ret s (.boundsViolation .stackPop 256 s.pc)

/-- PUSH of a register followed at once by POP into the same register leaves every register, R7 included, as it was (R148). -/
def Obligations.PushThenPopRestoresRegisters : Prop :=
  ∀ (a : Reg) (s : State), s.mem.wf → s.sp ≠ 0#8 → ∃ t u,
    exec (.push a) s = .next t ∧ exec (.pop a) t = .next u ∧
    (∀ r, u.reg r = s.reg r) ∧ u.pc = s.pc + 4 ∧ SameControl s u

/-- A CALL and a later RET resume at the call site plus 2, when at the RET the stack pointer and the byte at it are what the CALL
left, whatever else the subroutine did (R148). -/
def Obligations.RetResumesAfterCall : Prop :=
  ∀ (a : Reg) (s t u : State), s.mem.wf → s.sp ≠ 0#8 → s.pc ≤ 253 → exec (.call a) s = .next t →
    u.sp = t.sp → u.mem.read u.sp.toNat = t.mem.read t.sp.toNat →
    ∃ v, exec .ret u = .next v ∧ v.pc = s.pc + 2 ∧ v.sp = s.sp

/-! ### Jumps, print, halt, load-immediate -/

/-- JMP: `pc` takes the register, nothing else changes (42_control_flow.md R160, R161). -/
def Obligations.JmpSetsPc : Prop :=
  ∀ (a : Reg) (s : State), WritesPc (.jmp a) s (s.reg a).toNat

/-- JEQ jumps exactly when Equal is set, and else moves past its operand (R160, R162). -/
def Obligations.JeqJumpsIffEqual : Prop :=
  ∀ (a : Reg) (s : State),
    WritesPc (.jeq a) s (if s.fl.e = true then (s.reg a).toNat else s.pc + 2)

/-- JNE jumps exactly when Equal is clear, and else moves past its operand (R160, R163). -/
def Obligations.JneJumpsIffNotEqual : Prop :=
  ∀ (a : Reg) (s : State),
    WritesPc (.jne a) s (if s.fl.e = true then s.pc + 2 else (s.reg a).toNat)

/-- After a CMP, JEQ on the state it left jumps exactly when the two compared values were equal, and JNE exactly when they were
not (40_alu.md R113, 42_control_flow.md R162, R163, R164). -/
def Obligations.CmpThenJumpTestsEquality : Prop :=
  ∀ (a b c : Reg) (s t : State), exec (.cmp a b) s = .next t →
    WritesPc (.jeq c) t (if s.reg a = s.reg b then (s.reg c).toNat else s.pc + 5) ∧
    WritesPc (.jne c) t (if s.reg a = s.reg b then s.pc + 5 else (s.reg c).toNat)

/-- PRN appends the register's byte to the output and changes nothing else but `pc`, by 2 (43_print_halt_load.md R180). -/
def Obligations.PrnAppendsRegister : Prop :=
  ∀ (a : Reg) (s : State), ∃ t, exec (.prn a) s = .next t ∧ t.out = s.out ++ [s.reg a] ∧
    t.pc = s.pc + 2 ∧ SameRegsBut s t [] ∧ SameMemory s t ∧ t.fl = s.fl ∧ t.status = s.status

/-- HLT halts normally, with `pc` at its own address plus 1, and no step follows (R181, 30_encoding.md R95, 60_exceptions.md R213).
The outcome of the step that does not follow is the model's choice (log entry 2). -/
def Obligations.HltHaltsNormally : Prop :=
  ∀ s : State, ∃ t, exec .hlt s = .next t ∧ t.status = .halted .hlt ∧ t.pc = s.pc + 1 ∧
    SameRegsBut s t [] ∧ SameMemory s t ∧ t.fl = s.fl ∧ t.out = s.out ∧
    step t = .fault (.halted .hlt)

/-- LDI writes the immediate unchanged, whatever it is (R182, 30_encoding.md R78). -/
def Obligations.LdiWritesImmediate : Prop :=
  ∀ (a : Reg) (imm : Byte) (s : State), WritesReg (.ldi a imm) s a imm.toNat 3

/-- LDI into a register followed by PRN of it prints the literal, exactly (95_test_vectors.md W4; R180, R182). -/
def Obligations.LdiThenPrnPrintsLiteral : Prop :=
  ∀ (a : Reg) (imm : Byte) (s : State), ∃ t u, exec (.ldi a imm) s = .next t ∧
    exec (.prn a) t = .next u ∧ u.out = s.out ++ [imm] ∧ u.pc = s.pc + 5

/-! ### Reset and invariants -/

/-- The image input and what reset leaves: an image of at most 256 bytes starts the core with the image from address 0 on and 0
elsewhere, and every other piece of state at its reset value; a longer one is refused (70_reset_and_hazards.md R230, R231, R235,
20_memory.md R58). The zeros of R0 to R6, of the flags and of the memory beyond the image, and the refusal, are the spec's decisions
D6, D7 and D8 (log entries 8, 9 and 10). -/
def Obligations.BootPlacesImageInResetState : Prop :=
  ∀ image : List Byte,
    (image.length ≤ 256 → ∃ t, State.boot image = .next t ∧ t.status = .running ∧ t.pc = 0 ∧
      t.sp = 0xF4#8 ∧ (∀ r, r ≠ 7 → t.reg r = 0#8) ∧
      t.fl.l = false ∧ t.fl.g = false ∧ t.fl.e = false ∧ t.out = [] ∧
      (∀ k, t.mem.read k = image.getD k 0#8)) ∧
    (256 < image.length → State.boot image = .refused (.imageTooLong image.length)) ∧
    State.boot [] = .next State.reset

/-- The invariant holds at reset. -/
def Obligations.InvariantAtReset : Prop := State.reset.Inv

/-- The invariant holds in the state any image is booted into (70_reset_and_hazards.md R230, 10_state.md R27, R34). -/
def Obligations.InvariantAtBoot : Prop :=
  ∀ (image : List Byte) (t : State), State.boot image = .next t → t.Inv

/-- Every step keeps the invariant: memory canonical and inside 0 to 255, `pc` 0 to 256, at most one flag set, and a core that
faulted stands at the instruction its record names (20_memory.md R50, 10_state.md R27, R34, 60_exceptions.md R203). The range
of `pc` rests on the spec's decisions D4 and D5 and the precision of a fault on D10 (log entries 6, 7 and 11); the canonical form
is the model's. -/
def Obligations.StepKeepsInvariant : Prop :=
  ∀ s t : State, s.Inv → step s = .next t → t.Inv

/-- So every state that any image's run reaches meets the invariant, and a fault that such a run ends in is never the opcode fetch
at any address but 256 (10_state.md R27, 30_encoding.md R91). It rests on the spec's decisions D4, D5 and D8 (log entries 6, 7
and 10). -/
def Obligations.EveryRunMeetsInvariant : Prop :=
  ∀ (image : List Byte) (s t : State), State.boot image = .next s → Reaches s t →
    t.Inv ∧ ∀ addr pc, t.status = .halted (.fault (.boundsViolation .opcodeFetch addr pc)) →
      addr = 256 ∧ pc = 256

/-- What the source gives of the reset state: the status Running, the stack pointer 0xF4 and `pc` 0 (10_state.md R30). -/
def Obligations.ResetIsRunningAtZero : Prop :=
  State.reset.status = .running ∧ State.reset.sp = 0xF4#8 ∧ State.reset.pc = 0
end

