-- ==== Sys2Proof/Laws/Decode.lean ====
section
/-!
SUPPORT. The laws of the decoder's parts: the truncation, the register byte, the dispatch multiplexer.
-/

namespace Sys2Proof

@[simp] theorem trunc8_toNat (n : Nat) : (trunc8 n).toNat = n % 256 := rfl

theorem trunc8_toNat_of_lt {n : Nat} (h : n < 256) : (trunc8 n).toNat = n := by
  simp [Nat.mod_eq_of_lt h]

@[simp] theorem regByte_toNat (r : Reg) : (regByte r).toNat = r.val := by
  have := r.isLt
  simp [regByte]; omega

/-- A byte reads as a register exactly when it is that register's byte (30_encoding.md R77). -/
theorem decodeReg_eq_some {v : Byte} {r : Reg} : decodeReg v = some r ↔ v = regByte r := by
  unfold decodeReg
  constructor
  · intro h
    split at h
    · cases h
      apply BitVec.eq_of_toNat_eq
      simp
    · cases h
  · rintro rfl
    have := r.isLt
    simp [this]

theorem decodeReg_eq_none {v : Byte} : decodeReg v = none ↔ 8 ≤ v.toNat := by
  unfold decodeReg
  split <;> simp_all

@[simp] theorem decodeReg_regByte (r : Reg) : decodeReg (regByte r) = some r :=
  decodeReg_eq_some.2 rfl

theorem regByte_injective {r q : Reg} (h : regByte r = regByte q) : r = q := by
  have := congrArg BitVec.toNat h
  simp only [regByte_toNat] at this
  exact Fin.ext this

/-- What reading a register operand can answer: the continuation on the register, or the rejection. -/
theorem withReg_cases (op : Byte) (pos : OperandPos) (v : Byte) (k : Reg → Except DecodeError Instr) :
    (∃ r, v = regByte r ∧ withReg op pos v k = k r) ∨
    (8 ≤ v.toNat ∧ withReg op pos v k = .error (.badRegister op pos v)) := by
  unfold withReg
  cases h : decodeReg v with
  | some r => exact .inl ⟨r, decodeReg_eq_some.1 h, rfl⟩
  | none => exact .inr ⟨decodeReg_eq_none.1 h, rfl⟩

@[simp] theorem withReg_regByte (op : Byte) (pos : OperandPos) (r : Reg)
    (k : Reg → Except DecodeError Instr) : withReg op pos (regByte r) k = k r := by
  simp [withReg]

/-- The multiplexer finds the operation of each opcode (30_encoding.md R82). -/
@[simp] theorem decodeOpcode_opcodeOf (m : Mnemonic) : decodeOpcode (opcodeOf m) = some m := by
  cases m <;> decide

theorem decodeOpcode_eq_some {op : Byte} {m : Mnemonic} (h : decodeOpcode op = some m) :
    op = opcodeOf m := by
  have := List.find?_some h
  simpa using (beq_iff_eq.1 this).symm

theorem mem_mnemonics (m : Mnemonic) : m ∈ mnemonics := by
  cases m <;> decide

/-- The multiplexer finds nothing exactly for the bytes outside `OPCODES` (30_encoding.md R83). -/
theorem decodeOpcode_eq_none {op : Byte} : decodeOpcode op = none ↔ op ∉ opcodes := by
  constructor
  · intro h hmem
    obtain ⟨m, -, rfl⟩ := List.mem_map.1 hmem
    simp at h
  · intro h
    cases hd : decodeOpcode op with
    | none => rfl
    | some m => exact absurd (List.mem_map.2 ⟨m, mem_mnemonics m, (decodeOpcode_eq_some hd).symm⟩) h

theorem opcodeOf_mem_opcodes (m : Mnemonic) : opcodeOf m ∈ opcodes :=
  List.mem_map.2 ⟨m, mem_mnemonics m, rfl⟩

/-- The decoder on the opcode of a known operation goes straight to its operands. -/
theorem decode_opcodeOf (m : Mnemonic) (a b : Byte) :
    decode (opcodeOf m) a b = decodeOperands m (opcodeOf m) a b := by
  simp [decode]

end Sys2Proof
end

