-- ==== Sys2Proof/Laws/Memory.lean ====
section
/-!
SUPPORT. The laws of memory: a read after a write, the canonical form under every memory operation, and the image input.
-/

namespace Sys2Proof.Machine

@[simp] theorem Memory.read_nil (addr : Nat) : Memory.read [] addr = memFill := rfl

theorem Memory.read_cons (k : Nat) (w : Byte) (m : Memory) (addr : Nat) :
    Memory.read ((k, w) :: m) addr = if k = addr then w else Memory.read m addr := rfl

/-- An address below every listed one reads as an unlisted address does. -/
theorem Memory.read_of_lt {m : Memory} {addr : Nat} (h : ∀ c ∈ m, addr < c.1) :
    m.read addr = memFill := by
  induction m with
  | nil => rfl
  | cons c m ih =>
    obtain ⟨k, w⟩ := c
    have hk : addr < k := h (k, w) (by simp)
    rw [Memory.read_cons, if_neg (by omega)]
    exact ih fun c hc => h c (List.mem_cons_of_mem _ hc)

theorem Memory.mem_consCell {addr : Nat} {v : Byte} {m : Memory} {c : Host.Cell} :
    c ∈ Memory.consCell addr v m ↔ (v ≠ memFill ∧ c = (addr, v)) ∨ c ∈ m := by
  unfold Memory.consCell
  split <;> simp_all

/-- Reading at or above a cell put in front: the cell's address gives its value, whether or not it is listed. -/
theorem Memory.read_consCell {addr : Nat} {v : Byte} {m : Memory} (h : ∀ c ∈ m, addr < c.1) (q : Nat) :
    (Memory.consCell addr v m).read q = if q = addr then v else m.read q := by
  unfold Memory.consCell
  by_cases hv : v = memFill
  · rw [if_pos hv]
    by_cases hq : q = addr
    · rw [if_pos hq, hq, Memory.read_of_lt h, hv]
    · rw [if_neg hq]
  · rw [if_neg hv, Memory.read_cons]
    simp only [eq_comm]

/-- The listed addresses after a write: the old ones and the written one. -/
theorem Memory.mem_write {m : Memory} {addr : Nat} {v : Byte} {c : Host.Cell} (h : c ∈ m.write addr v) :
    (c = (addr, v) ∧ v ≠ memFill) ∨ c ∈ m := by
  induction m with
  | nil =>
    rcases Memory.mem_consCell.1 h with ⟨hv, rfl⟩ | h
    · exact .inl ⟨rfl, hv⟩
    · exact .inr h
  | cons d m ih =>
    obtain ⟨k, w⟩ := d
    simp only [Memory.write] at h
    split at h
    · rcases List.mem_cons.1 h with rfl | h
      · simp
      · exact (ih h).imp id (List.mem_cons_of_mem _)
    · split at h <;> rcases Memory.mem_consCell.1 h with ⟨hv, rfl⟩ | h
      · exact .inl ⟨rfl, hv⟩
      · exact .inr (List.mem_cons_of_mem _ h)
      · exact .inl ⟨rfl, hv⟩
      · exact .inr h

/-- A read after a write, in a memory whose addresses rise (20_memory.md R61). -/
theorem Memory.read_write_of_sorted {m : Memory} (hm : m.Pairwise (fun c d => c.1 < d.1))
    (addr : Nat) (v : Byte) (q : Nat) :
    (m.write addr v).read q = if q = addr then v else m.read q := by
  induction m with
  | nil => exact Memory.read_consCell (by simp) q
  | cons c m ih =>
    obtain ⟨k, w⟩ := c
    obtain ⟨hk, hm⟩ := List.pairwise_cons.1 hm
    simp only [Memory.write]
    split
    · rename_i hlt
      rw [Memory.read_cons, Memory.read_cons, ih hm]
      by_cases hq : k = q
      · rw [if_pos hq, if_pos hq, if_neg (by omega)]
      · rw [if_neg hq, if_neg hq]
    · split
      · rename_i heq
        subst heq
        rw [Memory.read_consCell (fun c hc => hk c hc), Memory.read_cons]
        by_cases hq : q = k
        · rw [if_pos hq, if_pos hq]
        · rw [if_neg hq, if_neg hq, if_neg (Ne.symm hq)]
      · refine Memory.read_consCell ?_ q
        intro c hc
        rcases List.mem_cons.1 hc with rfl | hc
        · simp; omega
        · have := hk c hc
          simp at this; omega

theorem Memory.read_write {m : Memory} (hm : m.wf) (addr : Nat) (v : Byte) (q : Nat) :
    (m.write addr v).read q = if q = addr then v else m.read q :=
  Memory.read_write_of_sorted hm.1 addr v q

/-- Another address reads as before, in whatever form the memory is. -/
theorem Memory.read_write_ne (m : Memory) {addr q : Nat} (v : Byte) (h : q ≠ addr) :
    (m.write addr v).read q = m.read q := by
  have hcons : ∀ l : Memory, (Memory.consCell addr v l).read q = l.read q := by
    intro l
    unfold Memory.consCell
    split
    · rfl
    · rw [Memory.read_cons, if_neg (Ne.symm h)]
  induction m with
  | nil => exact hcons []
  | cons c m ih =>
    obtain ⟨k, w⟩ := c
    simp only [Memory.write]
    split
    · rw [Memory.read_cons, Memory.read_cons, ih]
    · split
      · rename_i heq
        rw [hcons, Memory.read_cons, if_neg (by omega)]
      · rw [hcons]

/-- The written address reads as the value written, in a memory whose addresses rise. -/
theorem Memory.read_write_self {m : Memory} (hm : m.wf) (addr : Nat) (v : Byte) :
    (m.write addr v).read addr = v := by
  simp [Memory.read_write hm]

theorem Memory.consCell_sorted {addr : Nat} {v : Byte} {m : Memory}
    (hm : m.Pairwise (fun c d => c.1 < d.1)) (h : ∀ c ∈ m, addr < c.1) :
    (Memory.consCell addr v m).Pairwise (fun c d => c.1 < d.1) := by
  unfold Memory.consCell
  split
  · exact hm
  · exact List.pairwise_cons.2 ⟨h, hm⟩

theorem Memory.write_sorted {m : Memory} (hm : m.Pairwise (fun c d => c.1 < d.1)) (addr : Nat) (v : Byte) :
    (m.write addr v).Pairwise (fun c d => c.1 < d.1) := by
  induction m with
  | nil => exact Memory.consCell_sorted hm (by simp)
  | cons c m ih =>
    obtain ⟨k, w⟩ := c
    obtain ⟨hk, hm'⟩ := List.pairwise_cons.1 hm
    simp only [Memory.write]
    split
    · refine List.pairwise_cons.2 ⟨fun d hd => ?_, ih hm'⟩
      rcases Memory.mem_write hd with ⟨rfl, -⟩ | hd
      · assumption
      · exact hk d hd
    · split
      · rename_i heq
        subst heq
        exact Memory.consCell_sorted hm' fun c hc => hk c hc
      · refine Memory.consCell_sorted hm fun c hc => ?_
        rcases List.mem_cons.1 hc with rfl | hc
        · simp; omega
        · have := hk c hc
          simp at this; omega

/-- A write at an address of the address space keeps the canonical form. -/
theorem Memory.wf_write {m : Memory} (hm : m.wf) {addr : Nat} (ha : addr < Config.memSize) (v : Byte) :
    (m.write addr v).wf := by
  refine ⟨Memory.write_sorted hm.1 addr v, fun c hc => ?_⟩
  rcases Memory.mem_write hc with ⟨rfl, hv⟩ | hc
  · exact ⟨ha, hv⟩
  · exact hm.2 c hc

theorem Memory.wf_nil : Memory.wf [] := by simp [Memory.wf]

/-- The image input keeps the canonical form when the image fits. -/
theorem Memory.wf_writeList (vs : List Byte) {m : Memory} (hm : m.wf) (addr : Nat)
    (h : addr + vs.length ≤ Config.memSize) : (m.writeList addr vs).wf := by
  induction vs generalizing m addr with
  | nil => exact hm
  | cons v vs ih =>
    simp only [List.length_cons] at h
    exact ih (Memory.wf_write hm (by omega) v) (addr + 1) (by omega)

/-- What memory reads as after bytes are written at increasing addresses. -/
theorem Memory.read_writeList (vs : List Byte) {m : Memory} (hm : m.Pairwise (fun c d => c.1 < d.1))
    (addr q : Nat) :
    (m.writeList addr vs).read q =
      if addr ≤ q ∧ q < addr + vs.length then vs.getD (q - addr) 0 else m.read q := by
  induction vs generalizing m addr with
  | nil =>
    rw [if_neg (fun h => by simp at h; omega)]
    rfl
  | cons v vs ih =>
    simp only [Memory.writeList, ih (Memory.write_sorted hm addr v),
      Memory.read_write_of_sorted hm, List.length_cons]
    by_cases hq : q = addr
    · subst hq
      rw [if_neg (by omega), if_pos rfl, if_pos (by omega)]
      simp
    · by_cases hr : addr + 1 ≤ q ∧ q < addr + 1 + vs.length
      · rw [if_pos hr, if_pos (by omega)]
        obtain ⟨n, hn⟩ : ∃ n, q - addr = n + 1 := ⟨q - addr - 1, by omega⟩
        rw [hn, show q - (addr + 1) = n by omega]
        simp
      · rw [if_neg hr, if_neg hq, if_neg (by omega)]

/-- The canonical form is canonical: two memories in it that read alike are equal. -/
theorem Memory.ext_read {m n : Memory} (hm : m.wf) (hn : n.wf) (h : ∀ q, m.read q = n.read q) : m = n := by
  induction m generalizing n with
  | nil =>
    cases n with
    | nil => rfl
    | cons d n =>
      have := (h d.1).symm
      rw [Memory.read_cons, if_pos rfl] at this
      exact absurd this (hn.2 d (by simp)).2
  | cons c m ih =>
    obtain ⟨hc, hm1⟩ := List.pairwise_cons.1 hm.1
    have hcv := (hm.2 c (by simp)).2
    have hmw : Memory.wf m := ⟨hm1, fun e he => hm.2 e (List.mem_cons_of_mem _ he)⟩
    cases n with
    | nil =>
      have := h c.1
      rw [Memory.read_cons, if_pos rfl] at this
      exact absurd this hcv
    | cons d n =>
      obtain ⟨hd, hn1⟩ := List.pairwise_cons.1 hn.1
      have hdv := (hn.2 d (by simp)).2
      have hnw : Memory.wf n := ⟨hn1, fun e he => hn.2 e (List.mem_cons_of_mem _ he)⟩
      obtain ⟨k, v⟩ := c
      obtain ⟨j, w⟩ := d
      have hkj : k = j := by
        rcases Nat.lt_trichotomy k j with hlt | heq | hgt
        · have := h k
          rw [Memory.read_cons, if_pos rfl, Memory.read_of_lt] at this
          · exact absurd this hcv
          · intro e he
            rcases List.mem_cons.1 he with rfl | he
            · exact hlt
            · exact Nat.lt_trans hlt (hd e he)
        · exact heq
        · have := h j
          rw [Memory.read_cons j, if_pos rfl, Memory.read_of_lt] at this
          · exact absurd this.symm hdv
          · intro e he
            rcases List.mem_cons.1 he with rfl | he
            · exact hgt
            · exact Nat.lt_trans hgt (hc e he)
      subst hkj
      have hvw : v = w := by simpa [Memory.read_cons] using h k
      subst hvw
      refine congrArg _ (ih hmw hnw fun q => ?_)
      by_cases hq : k = q
      · subst hq
        rw [Memory.read_of_lt hc, Memory.read_of_lt hd]
      · simpa [Memory.read_cons, hq] using h q

end Sys2Proof.Machine
end

