-- ==== Sys2Proof/Laws/State.lean ====
section
/-!
SUPPORT. The small lemmas of the state: one per field and update, so that no proof unfolds a record update.
-/

namespace Sys2Proof.Machine

/-! ### The register file -/

theorem Regs.get_set (x : Regs) (r q : Reg) (v : Byte) :
    (x.set r v).get q = if q = r then v else x.get q := by
  fin_cases r <;> fin_cases q <;> rfl

@[simp] theorem Regs.get_set_self (x : Regs) (r : Reg) (v : Byte) : (x.set r v).get r = v := by
  simp [Regs.get_set]

theorem Regs.get_set_ne (x : Regs) {r q : Reg} (v : Byte) (h : q ≠ r) :
    (x.set r v).get q = x.get q := by
  simp [Regs.get_set, h]

@[simp] theorem Regs.set_set (x : Regs) (r : Reg) (v w : Byte) : (x.set r v).set r w = x.set r w := by
  fin_cases r <;> rfl

@[simp] theorem Regs.set_get (x : Regs) (r : Reg) : x.set r (x.get r) = x := by
  fin_cases r <;> rfl

/-- Two register files with the same contents are equal. -/
theorem Regs.ext_get {x y : Regs} (h : ∀ r, x.get r = y.get r) : x = y := by
  have h0 := h 0; have h1 := h 1; have h2 := h 2; have h3 := h 3
  have h4 := h 4; have h5 := h 5; have h6 := h 6; have h7 := h 7
  cases x; cases y
  simp only [Regs.get] at h0 h1 h2 h3 h4 h5 h6 h7
  simp only [h0, h1, h2, h3, h4, h5, h6, h7]

/-! ### `State.setReg` -/

@[simp] theorem State.setReg_mem (s : State) (r : Reg) (v : Byte) : (s.setReg r v).mem = s.mem := rfl

@[simp] theorem State.setReg_regs (s : State) (r : Reg) (v : Byte) : (s.setReg r v).regs = s.regs.set r v := rfl

@[simp] theorem State.setReg_pc (s : State) (r : Reg) (v : Byte) : (s.setReg r v).pc = s.pc := rfl

@[simp] theorem State.setReg_fl (s : State) (r : Reg) (v : Byte) : (s.setReg r v).fl = s.fl := rfl

@[simp] theorem State.setReg_status (s : State) (r : Reg) (v : Byte) : (s.setReg r v).status = s.status := rfl

@[simp] theorem State.setReg_out (s : State) (r : Reg) (v : Byte) : (s.setReg r v).out = s.out := rfl

/-! ### `State.setSp` -/

@[simp] theorem State.setSp_mem (s : State) (v : Byte) : (s.setSp v).mem = s.mem := rfl

@[simp] theorem State.setSp_regs (s : State) (v : Byte) : (s.setSp v).regs = s.regs.set Config.spIndex v := rfl

@[simp] theorem State.setSp_pc (s : State) (v : Byte) : (s.setSp v).pc = s.pc := rfl

@[simp] theorem State.setSp_fl (s : State) (v : Byte) : (s.setSp v).fl = s.fl := rfl

@[simp] theorem State.setSp_status (s : State) (v : Byte) : (s.setSp v).status = s.status := rfl

@[simp] theorem State.setSp_out (s : State) (v : Byte) : (s.setSp v).out = s.out := rfl

/-! ### `State.store` -/

@[simp] theorem State.store_mem (s : State) (addr v : Byte) : (s.store addr v).mem = s.mem.write addr.toNat v := rfl

@[simp] theorem State.store_regs (s : State) (addr v : Byte) : (s.store addr v).regs = s.regs := rfl

@[simp] theorem State.store_pc (s : State) (addr v : Byte) : (s.store addr v).pc = s.pc := rfl

@[simp] theorem State.store_fl (s : State) (addr v : Byte) : (s.store addr v).fl = s.fl := rfl

@[simp] theorem State.store_status (s : State) (addr v : Byte) : (s.store addr v).status = s.status := rfl

@[simp] theorem State.store_out (s : State) (addr v : Byte) : (s.store addr v).out = s.out := rfl

@[simp] theorem State.store_reg (s : State) (addr v : Byte) (q : Reg) : (s.store addr v).reg q = s.reg q := rfl

@[simp] theorem State.store_sp (s : State) (addr v : Byte) : (s.store addr v).sp = s.sp := rfl

/-! ### `State.jump` -/

@[simp] theorem State.jump_mem (s : State) (v : Byte) : (s.jump v).mem = s.mem := rfl

@[simp] theorem State.jump_regs (s : State) (v : Byte) : (s.jump v).regs = s.regs := rfl

@[simp] theorem State.jump_pc (s : State) (v : Byte) : (s.jump v).pc = v.toNat := rfl

@[simp] theorem State.jump_fl (s : State) (v : Byte) : (s.jump v).fl = s.fl := rfl

@[simp] theorem State.jump_status (s : State) (v : Byte) : (s.jump v).status = s.status := rfl

@[simp] theorem State.jump_out (s : State) (v : Byte) : (s.jump v).out = s.out := rfl

@[simp] theorem State.jump_reg (s : State) (v : Byte) (q : Reg) : (s.jump v).reg q = s.reg q := rfl

@[simp] theorem State.jump_sp (s : State) (v : Byte) : (s.jump v).sp = s.sp := rfl

/-! ### `State.setFlags` -/

@[simp] theorem State.setFlags_mem (s : State) (f : Flags) : (s.setFlags f).mem = s.mem := rfl

@[simp] theorem State.setFlags_regs (s : State) (f : Flags) : (s.setFlags f).regs = s.regs := rfl

@[simp] theorem State.setFlags_pc (s : State) (f : Flags) : (s.setFlags f).pc = s.pc := rfl

@[simp] theorem State.setFlags_fl (s : State) (f : Flags) : (s.setFlags f).fl = f := rfl

@[simp] theorem State.setFlags_status (s : State) (f : Flags) : (s.setFlags f).status = s.status := rfl

@[simp] theorem State.setFlags_out (s : State) (f : Flags) : (s.setFlags f).out = s.out := rfl

@[simp] theorem State.setFlags_reg (s : State) (f : Flags) (q : Reg) : (s.setFlags f).reg q = s.reg q := rfl

@[simp] theorem State.setFlags_sp (s : State) (f : Flags) : (s.setFlags f).sp = s.sp := rfl

/-! ### `State.emit` -/

@[simp] theorem State.emit_mem (s : State) (v : Byte) : (s.emit v).mem = s.mem := rfl

@[simp] theorem State.emit_regs (s : State) (v : Byte) : (s.emit v).regs = s.regs := rfl

@[simp] theorem State.emit_pc (s : State) (v : Byte) : (s.emit v).pc = s.pc := rfl

@[simp] theorem State.emit_fl (s : State) (v : Byte) : (s.emit v).fl = s.fl := rfl

@[simp] theorem State.emit_status (s : State) (v : Byte) : (s.emit v).status = s.status := rfl

@[simp] theorem State.emit_out (s : State) (v : Byte) : (s.emit v).out = s.out ++ [v] := rfl

@[simp] theorem State.emit_reg (s : State) (v : Byte) (q : Reg) : (s.emit v).reg q = s.reg q := rfl

@[simp] theorem State.emit_sp (s : State) (v : Byte) : (s.emit v).sp = s.sp := rfl

/-! ### `State.haltNormally` -/

@[simp] theorem State.haltNormally_mem (s : State) : (s.haltNormally).mem = s.mem := rfl

@[simp] theorem State.haltNormally_regs (s : State) : (s.haltNormally).regs = s.regs := rfl

@[simp] theorem State.haltNormally_pc (s : State) : (s.haltNormally).pc = s.pc := rfl

@[simp] theorem State.haltNormally_fl (s : State) : (s.haltNormally).fl = s.fl := rfl

@[simp] theorem State.haltNormally_status (s : State) : (s.haltNormally).status = .halted .hlt := rfl

@[simp] theorem State.haltNormally_out (s : State) : (s.haltNormally).out = s.out := rfl

@[simp] theorem State.haltNormally_reg (s : State) (q : Reg) : (s.haltNormally).reg q = s.reg q := rfl

@[simp] theorem State.haltNormally_sp (s : State) : (s.haltNormally).sp = s.sp := rfl

/-! ### `State.raise` -/

@[simp] theorem State.raise_mem (s : State) (k : FaultRecord) : (s.raise k).mem = s.mem := rfl

@[simp] theorem State.raise_regs (s : State) (k : FaultRecord) : (s.raise k).regs = s.regs := rfl

@[simp] theorem State.raise_pc (s : State) (k : FaultRecord) : (s.raise k).pc = s.pc := rfl

@[simp] theorem State.raise_fl (s : State) (k : FaultRecord) : (s.raise k).fl = s.fl := rfl

@[simp] theorem State.raise_status (s : State) (k : FaultRecord) : (s.raise k).status = .halted (.fault k) := rfl

@[simp] theorem State.raise_out (s : State) (k : FaultRecord) : (s.raise k).out = s.out := rfl

@[simp] theorem State.raise_reg (s : State) (k : FaultRecord) (q : Reg) : (s.raise k).reg q = s.reg q := rfl

@[simp] theorem State.raise_sp (s : State) (k : FaultRecord) : (s.raise k).sp = s.sp := rfl

/-! ### Reading registers after a write -/

theorem State.setReg_reg (s : State) (r q : Reg) (v : Byte) :
    (s.setReg r v).reg q = if q = r then v else s.reg q := Regs.get_set ..

@[simp] theorem State.setReg_reg_self (s : State) (r : Reg) (v : Byte) : (s.setReg r v).reg r = v :=
  Regs.get_set_self ..

theorem State.setSp_reg (s : State) (q : Reg) (v : Byte) :
    (s.setSp v).reg q = if q = 7 then v else s.reg q := Regs.get_set ..

@[simp] theorem State.setSp_sp (s : State) (v : Byte) : (s.setSp v).sp = v :=
  Regs.get_set_self s.regs Config.spIndex v

theorem State.setReg_sp (s : State) (r : Reg) (v : Byte) :
    (s.setReg r v).sp = if 7 = r then v else s.sp :=
  Regs.get_set s.regs r Config.spIndex v

theorem State.sp_eq_reg (s : State) : s.sp = s.reg 7 := rfl

/-! ### Reading memory through a register address -/

theorem State.load_eq (s : State) (addr : Byte) : s.load addr = s.mem.read addr.toNat := rfl

theorem State.top_eq (s : State) : s.top = s.mem.read s.sp.toNat := rfl

end Sys2Proof.Machine
end

