-- ==== Sys2Proof/Laws/Ops.lean ====
section
/-!
SUPPORT. What each shared operation can do, said once.
-/

namespace Sys2Proof.Machine

/-! ### The end of the cycle -/

@[simp] theorem State.endCycle_mem (s : State) (m : Mnemonic) : (s.endCycle m).mem = s.mem := by
  unfold State.endCycle; split <;> rfl

@[simp] theorem State.endCycle_regs (s : State) (m : Mnemonic) : (s.endCycle m).regs = s.regs := by
  unfold State.endCycle; split <;> rfl

@[simp] theorem State.endCycle_fl (s : State) (m : Mnemonic) : (s.endCycle m).fl = s.fl := by
  unfold State.endCycle; split <;> rfl

@[simp] theorem State.endCycle_status (s : State) (m : Mnemonic) : (s.endCycle m).status = s.status := by
  unfold State.endCycle; split <;> rfl

@[simp] theorem State.endCycle_out (s : State) (m : Mnemonic) : (s.endCycle m).out = s.out := by
  unfold State.endCycle; split <;> rfl

@[simp] theorem State.endCycle_reg (s : State) (m : Mnemonic) (r : Reg) :
    (s.endCycle m).reg r = s.reg r := by
  simp [State.reg]

@[simp] theorem State.endCycle_sp (s : State) (m : Mnemonic) : (s.endCycle m).sp = s.sp := by
  simp [State.sp]

/-- R94, on the PC-control bit of the operation's opcode. -/
theorem State.endCycle_pc (s : State) (m : Mnemonic) :
    (s.endCycle m).pc =
      if pcControl (opcodeOf m) = true then s.pc else s.pc + lengthOf (opcodeOf m) := by
  unfold State.endCycle; split <;> rfl

/-! ### Where the cycle leaves `pc`, per operation (10_state.md R28) -/

/-- An operation whose PC-control bit is clear: the cycle moves `pc` on by the length. -/
theorem State.endCycle_pc_of_advance (s : State) {m : Mnemonic} {n : Nat}
    (h : pcControl (opcodeOf m) = false) (hn : lengthOf (opcodeOf m) = n) :
    (s.endCycle m).pc = s.pc + n := by
  rw [State.endCycle_pc, h, hn]
  rfl

/-- An operation whose PC-control bit is set: the cycle leaves `pc`. -/
theorem State.endCycle_pc_of_control (s : State) {m : Mnemonic} (h : pcControl (opcodeOf m) = true) :
    (s.endCycle m).pc = s.pc := by
  rw [State.endCycle_pc, h]
  rfl

@[simp] theorem State.endCycle_hlt_pc (s : State) : (s.endCycle .hlt).pc = s.pc + 1 :=
  s.endCycle_pc_of_advance (by decide) (by decide)

@[simp] theorem State.endCycle_push_pc (s : State) : (s.endCycle .push).pc = s.pc + 2 :=
  s.endCycle_pc_of_advance (by decide) (by decide)

@[simp] theorem State.endCycle_pop_pc (s : State) : (s.endCycle .pop).pc = s.pc + 2 :=
  s.endCycle_pc_of_advance (by decide) (by decide)

@[simp] theorem State.endCycle_prn_pc (s : State) : (s.endCycle .prn).pc = s.pc + 2 :=
  s.endCycle_pc_of_advance (by decide) (by decide)

@[simp] theorem State.endCycle_not_pc (s : State) : (s.endCycle .not).pc = s.pc + 2 :=
  s.endCycle_pc_of_advance (by decide) (by decide)

@[simp] theorem State.endCycle_ldi_pc (s : State) : (s.endCycle .ldi).pc = s.pc + 3 :=
  s.endCycle_pc_of_advance (by decide) (by decide)

@[simp] theorem State.endCycle_add_pc (s : State) : (s.endCycle .add).pc = s.pc + 3 :=
  s.endCycle_pc_of_advance (by decide) (by decide)

@[simp] theorem State.endCycle_mul_pc (s : State) : (s.endCycle .mul).pc = s.pc + 3 :=
  s.endCycle_pc_of_advance (by decide) (by decide)

@[simp] theorem State.endCycle_mod_pc (s : State) : (s.endCycle .mod).pc = s.pc + 3 :=
  s.endCycle_pc_of_advance (by decide) (by decide)

@[simp] theorem State.endCycle_cmp_pc (s : State) : (s.endCycle .cmp).pc = s.pc + 3 :=
  s.endCycle_pc_of_advance (by decide) (by decide)

@[simp] theorem State.endCycle_and_pc (s : State) : (s.endCycle .and).pc = s.pc + 3 :=
  s.endCycle_pc_of_advance (by decide) (by decide)

@[simp] theorem State.endCycle_or_pc (s : State) : (s.endCycle .or).pc = s.pc + 3 :=
  s.endCycle_pc_of_advance (by decide) (by decide)

@[simp] theorem State.endCycle_xor_pc (s : State) : (s.endCycle .xor).pc = s.pc + 3 :=
  s.endCycle_pc_of_advance (by decide) (by decide)

@[simp] theorem State.endCycle_shl_pc (s : State) : (s.endCycle .shl).pc = s.pc + 3 :=
  s.endCycle_pc_of_advance (by decide) (by decide)

@[simp] theorem State.endCycle_shr_pc (s : State) : (s.endCycle .shr).pc = s.pc + 3 :=
  s.endCycle_pc_of_advance (by decide) (by decide)

@[simp] theorem State.endCycle_ret_pc (s : State) : (s.endCycle .ret).pc = s.pc :=
  s.endCycle_pc_of_control (by decide)

@[simp] theorem State.endCycle_call_pc (s : State) : (s.endCycle .call).pc = s.pc :=
  s.endCycle_pc_of_control (by decide)

@[simp] theorem State.endCycle_jmp_pc (s : State) : (s.endCycle .jmp).pc = s.pc :=
  s.endCycle_pc_of_control (by decide)

@[simp] theorem State.endCycle_jeq_pc (s : State) : (s.endCycle .jeq).pc = s.pc :=
  s.endCycle_pc_of_control (by decide)

@[simp] theorem State.endCycle_jne_pc (s : State) : (s.endCycle .jne).pc = s.pc :=
  s.endCycle_pc_of_control (by decide)

/-- An operation that raises gives the raise, and one that does not ends the cycle. -/
theorem State.finish_eq_next {s t : State} {m : Mnemonic} {r : Except FaultRecord State}
    (h : s.finish m r = .next t) :
    (∃ k, r = .error k ∧ t = s.raise k) ∨ (∃ u, r = .ok u ∧ t = u.endCycle m) := by
  cases r with
  | error k => exact .inl ⟨k, rfl, by simpa [State.finish] using h.symm⟩
  | ok u => exact .inr ⟨u, rfl, by simpa [State.finish] using h.symm⟩

theorem State.finish_total (s : State) (m : Mnemonic) (r : Except FaultRecord State) :
    ∃ t, s.finish m r = .next t := by
  cases r <;> exact ⟨_, rfl⟩

theorem State.finish_ok (s u : State) (m : Mnemonic) : s.finish m (.ok u) = .next (u.endCycle m) := rfl

theorem State.finish_error (s : State) (m : Mnemonic) (k : FaultRecord) :
    s.finish m (.error k) = .next (s.raise k) := rfl

/-! ### The stack primitives -/

theorem State.decSp_zero {s : State} (h : s.sp = 0#8) :
    s.decSp = .error (.boundsViolation .stackPush (-1) s.pc) := by
  simp [State.decSp, h]

theorem State.decSp_ok {s : State} (h : s.sp ≠ 0#8) :
    s.decSp = .ok (s.setSp (trunc8 (s.sp.toNat - 1))) := by
  simp [State.decSp, h]

theorem byte_lt (v : Byte) : v.toNat < 256 := v.isLt

/-- A push at SP = 0 writes nothing (41_stack.md R141). -/
theorem State.push_zero {s : State} (h : s.sp = 0#8) (value : State → Byte) :
    s.push value = .error (.boundsViolation .stackPush (-1) s.pc) := by
  simp [State.push, State.decSp_zero h]

/-- The state after the push primitive: `value` at the cell below the old SP, and SP there. -/
def State.pushed (s : State) (value : State → Byte) : State :=
  (s.setSp (trunc8 (s.sp.toNat - 1))).store (trunc8 (s.sp.toNat - 1))
    (value (s.setSp (trunc8 (s.sp.toNat - 1))))

/-- A push elsewhere: SP goes down, then the value is evaluated and stored there (R142). -/
theorem State.push_ok {s : State} (h : s.sp ≠ 0#8) (value : State → Byte) :
    s.push value = .ok (s.pushed value) := by
  simp [State.push, State.decSp_ok h, State.pushed]

/-- The new SP of a push, as a number. -/
theorem State.pushedSp_toNat (s : State) : (trunc8 (s.sp.toNat - 1)).toNat = s.sp.toNat - 1 := by
  have := byte_lt s.sp
  rw [trunc8_toNat_of_lt (by omega)]

/-- A pop that would leave SP at 256 writes nothing (R141). -/
theorem State.incSp_top {s : State} (h : s.sp = 255#8) :
    s.incSp = .error (.boundsViolation .stackPop 256 s.pc) := by
  simp [State.incSp, h]

theorem State.incSp_ok {s : State} (h : s.sp ≠ 255#8) :
    s.incSp = .ok (s.setSp (trunc8 (s.sp.toNat + 1))) := by
  have hlt := byte_lt s.sp
  have : s.sp.toNat ≠ 255 := fun hn => h (BitVec.eq_of_toNat_eq hn)
  rw [State.incSp, if_neg (by omega)]

/-- The new SP of a pop, as a number. -/
theorem State.poppedSp_toNat {s : State} (h : s.sp ≠ 255#8) :
    (trunc8 (s.sp.toNat + 1)).toNat = s.sp.toNat + 1 := by
  have hlt := byte_lt s.sp
  have : s.sp.toNat ≠ 255 := fun hn => h (BitVec.eq_of_toNat_eq hn)
  rw [trunc8_toNat_of_lt (by omega)]

/-- What the push primitive can answer. -/
theorem State.push_cases (s : State) (value : State → Byte) :
    (s.sp = 0#8 ∧ s.push value = .error (.boundsViolation .stackPush (-1) s.pc)) ∨
    (s.sp ≠ 0#8 ∧ s.push value = .ok (s.pushed value)) := by
  by_cases h : s.sp = 0#8
  · exact .inl ⟨h, State.push_zero h value⟩
  · exact .inr ⟨h, State.push_ok h value⟩

/-- What moving SP up can answer. -/
theorem State.incSp_cases (s : State) :
    (s.sp = 255#8 ∧ s.incSp = .error (.boundsViolation .stackPop 256 s.pc)) ∨
    (s.sp ≠ 255#8 ∧ s.incSp = .ok (s.setSp (trunc8 (s.sp.toNat + 1)))) := by
  by_cases h : s.sp = 255#8
  · exact .inl ⟨h, State.incSp_top h⟩
  · exact .inr ⟨h, State.incSp_ok h⟩

@[simp] theorem State.pushed_mem (s : State) (value : State → Byte) : (s.pushed value).mem =
    s.mem.write (s.sp.toNat - 1) (value (s.setSp (trunc8 (s.sp.toNat - 1)))) := by
  simp only [State.pushed, State.store_mem, State.setSp_mem, State.pushedSp_toNat]

@[simp] theorem State.pushed_pc (s : State) (value : State → Byte) : (s.pushed value).pc = s.pc := rfl

@[simp] theorem State.pushed_fl (s : State) (value : State → Byte) : (s.pushed value).fl = s.fl := rfl

@[simp] theorem State.pushed_status (s : State) (value : State → Byte) :
    (s.pushed value).status = s.status := rfl

@[simp] theorem State.pushed_out (s : State) (value : State → Byte) : (s.pushed value).out = s.out := rfl

@[simp] theorem State.pushed_sp (s : State) (value : State → Byte) :
    (s.pushed value).sp = trunc8 (s.sp.toNat - 1) := by
  simp [State.pushed]

theorem State.pushed_reg (s : State) (value : State → Byte) (r : Reg) :
    (s.pushed value).reg r = if r = 7 then trunc8 (s.sp.toNat - 1) else s.reg r :=
  State.setSp_reg s r _

/-! ### The ALU results as numbers -/

theorem aluAdd_toNat (x y : Byte) : (aluAdd x y).toNat = (x.toNat + y.toNat) % 256 := rfl

theorem aluMul_toNat (x y : Byte) : (aluMul x y).toNat = (x.toNat * y.toNat) % 256 := rfl

theorem aluAnd_eq (x y : Byte) : aluAnd x y = x &&& y := by
  apply BitVec.eq_of_toNat_eq
  have := (x &&& y).isLt
  simp only [BitVec.toNat_and] at this
  simp [aluAnd, Nat.mod_eq_of_lt this]

theorem aluOr_eq (x y : Byte) : aluOr x y = x ||| y := by
  apply BitVec.eq_of_toNat_eq
  have := (x ||| y).isLt
  simp only [BitVec.toNat_or] at this
  simp [aluOr, Nat.mod_eq_of_lt this]

theorem aluXor_eq (x y : Byte) : aluXor x y = x ^^^ y := by
  apply BitVec.eq_of_toNat_eq
  have := (x ^^^ y).isLt
  simp only [BitVec.toNat_xor] at this
  simp [aluXor, Nat.mod_eq_of_lt this]

theorem aluNot_toNat (x : Byte) : (aluNot x).toNat = 255 - x.toNat := by
  rw [aluNot, trunc8_toNat_of_lt (by omega)]

theorem aluShl_toNat (x y : Byte) : (aluShl x y).toNat = x.toNat * 2 ^ y.toNat % 256 := rfl

theorem aluShr_toNat (x y : Byte) : (aluShr x y).toNat = x.toNat / 2 ^ y.toNat := by
  have := byte_lt x
  have := Nat.div_le_self x.toNat (2 ^ y.toNat)
  rw [aluShr, trunc8_toNat_of_lt (by omega)]

theorem aluMod_toNat (x y : Byte) : (aluMod x y).toNat = x.toNat % y.toNat := by
  have := byte_lt x
  have := Nat.mod_le x.toNat y.toNat
  rw [aluMod, trunc8_toNat_of_lt (by omega)]

/-! ### The flags -/

@[simp] theorem Flags.compare_l (x y : Byte) : (Flags.compare x y).l = decide (x.toNat < y.toNat) := rfl

@[simp] theorem Flags.compare_g (x y : Byte) : (Flags.compare x y).g = decide (y.toNat < x.toNat) := rfl

@[simp] theorem Flags.compare_e (x y : Byte) : (Flags.compare x y).e = (x.toNat == y.toNat) := rfl

/-- A comparison sets exactly one flag (10_state.md R31). -/
theorem Flags.compare_cases (x y : Byte) :
    Flags.compare x y = ⟨true, false, false⟩ ∨ Flags.compare x y = ⟨false, true, false⟩ ∨
      Flags.compare x y = ⟨false, false, true⟩ := by
  unfold Flags.compare
  rcases Nat.lt_trichotomy x.toNat y.toNat with h | h | h
  · simp [h, Nat.lt_asymm h, Nat.ne_of_lt h]
  · simp [h]
  · simp [h, Nat.lt_asymm h, Nat.ne_of_gt h]

/-! ### Jumps -/

theorem State.branch_true (s : State) (a : Reg) : s.branch true a = s.jump (s.reg a) := rfl

theorem State.branch_false (s : State) (a : Reg) : s.branch false a = { s with pc := s.pc + 2 } := rfl

end Sys2Proof.Machine
end

