-- ==== Sys2Proof/Laws/PerInstr.lean ====
section
/-!
SUPPORT. Families of statements about every instruction as it is written: one lemma per constructor.
-/

/-! ### The operand bytes of an encoding are well-formed -/

/-- The bytes the encoder writes after the opcode pass the operand check of the instruction's own operation, whatever
byte stands in an unused position (30_encoding.md R76, R77, R79). -/
def Sys2Proof.Laws.EncodesWellFormed.Statement (i : Sys2Proof.Instr) : Prop :=
  ∀ u v : Sys2Proof.Byte,
    i.mnemonic.wellFormed (i.operandBytes.getD 0 u) (i.operandBytes.getD 1 v) = true

namespace Sys2Proof.Laws.EncodesWellFormed

open Sys2Proof

/-- Format F1R: a register's byte, then a byte that is ignored. -/
theorem reg_unused (a : Reg) (v : Byte) : Mnemonic.push.wellFormed (regByte a) v = true := by
  simp [Mnemonic.wellFormed, Mnemonic.badOperand, Mnemonic.operandKinds, OperandKind.admits]

/-- Format F2RI: a register's byte, then any byte as an immediate. -/
theorem reg_imm (a : Reg) (v : Byte) : Mnemonic.ldi.wellFormed (regByte a) v = true := by
  simp [Mnemonic.wellFormed, Mnemonic.badOperand, Mnemonic.operandKinds, OperandKind.admits]

/-- Format F2RR: two registers' bytes. -/
theorem reg_reg (a b : Reg) : Mnemonic.add.wellFormed (regByte a) (regByte b) = true := by
  simp [Mnemonic.wellFormed, Mnemonic.badOperand, Mnemonic.operandKinds, OperandKind.admits]

theorem hlt : Statement .hlt := fun _ _ => rfl

theorem ret : Statement .ret := fun _ _ => rfl

theorem push (a : Reg) : Statement (.push a) := fun _ v => reg_unused a v

theorem pop (a : Reg) : Statement (.pop a) := fun _ v => reg_unused a v

theorem prn (a : Reg) : Statement (.prn a) := fun _ v => reg_unused a v

theorem call (a : Reg) : Statement (.call a) := fun _ v => reg_unused a v

theorem jmp (a : Reg) : Statement (.jmp a) := fun _ v => reg_unused a v

theorem jeq (a : Reg) : Statement (.jeq a) := fun _ v => reg_unused a v

theorem jne (a : Reg) : Statement (.jne a) := fun _ v => reg_unused a v

theorem not (a : Reg) : Statement (.not a) := fun _ v => reg_unused a v

theorem ldi (a : Reg) (imm : Byte) : Statement (.ldi a imm) := fun _ _ => reg_imm a imm

theorem add (a b : Reg) : Statement (.add a b) := fun _ _ => reg_reg a b

theorem mul (a b : Reg) : Statement (.mul a b) := fun _ _ => reg_reg a b

theorem mod (a b : Reg) : Statement (.mod a b) := fun _ _ => reg_reg a b

theorem cmp (a b : Reg) : Statement (.cmp a b) := fun _ _ => reg_reg a b

theorem and (a b : Reg) : Statement (.and a b) := fun _ _ => reg_reg a b

theorem or (a b : Reg) : Statement (.or a b) := fun _ _ => reg_reg a b

theorem xor (a b : Reg) : Statement (.xor a b) := fun _ _ => reg_reg a b

theorem shl (a b : Reg) : Statement (.shl a b) := fun _ _ => reg_reg a b

theorem shr (a b : Reg) : Statement (.shr a b) := fun _ _ => reg_reg a b

end Sys2Proof.Laws.EncodesWellFormed
end

