-- ==== Sys2Proof/Laws/Step.lean ====
section
/-!
SUPPORT. What a step can do, said once: fetching, the cycle, and the operations as equations.
-/

namespace Sys2Proof.Machine

/-! ### Fetching -/

theorem windowFault_none {p : Nat} (h : p ≤ 253) : windowFault p = none := by
  rw [windowFault, if_neg (by omega), if_neg (by omega)]

theorem windowFault_some {p : Nat} (h : 253 < p) (h' : p ≤ 255) :
    windowFault p = some (.boundsViolation .operandFetch 256 p) := by
  unfold windowFault
  obtain rfl | rfl : p = 254 ∨ p = 255 := by omega
  · rfl
  · rfl

/-- What fetching can answer, in the order of its checks (60_exceptions.md R205). -/
theorem State.fetch_cases (s : State) :
    (255 < s.pc ∧ s.fetch = .error (.boundsViolation .opcodeFetch s.pc s.pc)) ∨
    (s.pc ≤ 255 ∧ decodeOpcode (s.mem.read s.pc) = none ∧
      s.fetch = .error (.unknownOpcode (s.mem.read s.pc) s.pc)) ∨
    (253 < s.pc ∧ s.pc ≤ 255 ∧ (∃ m, decodeOpcode (s.mem.read s.pc) = some m) ∧
      s.fetch = .error (.boundsViolation .operandFetch 256 s.pc)) ∨
    (s.pc ≤ 253 ∧ ∃ m, decodeOpcode (s.mem.read s.pc) = some m ∧
      s.fetch =
        match decodeOperands m (s.mem.read s.pc) (s.mem.read (s.pc + 1)) (s.mem.read (s.pc + 2)) with
        | .error e => .error (decodeFault s.pc e)
        | .ok i => .ok i) := by
  unfold State.fetch
  by_cases h : 255 < s.pc
  · exact .inl ⟨h, by rw [if_pos h]⟩
  · rw [if_neg h]
    cases hm : decodeOpcode (s.mem.read s.pc) with
    | none => exact .inr (.inl ⟨by omega, rfl, rfl⟩)
    | some m =>
      simp only [State.fetchOperands]
      by_cases hw : 253 < s.pc
      · rw [windowFault_some hw (by omega)]
        exact .inr (.inr (.inl ⟨hw, by omega, ⟨m, rfl⟩, rfl⟩))
      · rw [windowFault_none (by omega)]
        exact .inr (.inr (.inr ⟨by omega, m, rfl, rfl⟩))

/-- An instruction is fetched exactly where the window is in range and its bytes decode to it. -/
theorem State.fetch_eq_ok {s : State} {i : Instr} :
    s.fetch = .ok i ↔ s.pc ≤ 253 ∧
      decode (s.mem.read s.pc) (s.mem.read (s.pc + 1)) (s.mem.read (s.pc + 2)) = .ok i := by
  rcases s.fetch_cases with ⟨h, hf⟩ | ⟨h, hd, hf⟩ | ⟨h, h', -, hf⟩ | ⟨h, m, hd, hf⟩
  · rw [hf]
    constructor
    · intro hc; cases hc
    · rintro ⟨hc, -⟩; omega
  · rw [hf, decode, hd]
    constructor
    · intro hc; cases hc
    · rintro ⟨-, hc⟩; cases hc
  · rw [hf]
    constructor
    · intro hc; cases hc
    · rintro ⟨hc, -⟩; omega
  · simp only [hf, decode, hd]
    generalize decodeOperands m (s.mem.read s.pc) (s.mem.read (s.pc + 1)) (s.mem.read (s.pc + 2)) = r
    cases r with
    | error e => simp
    | ok j => simp [h]

/-! ### The cycle -/

theorem step_of_halted {s : State} {r : HaltReason} (h : s.status = .halted r) :
    step s = .fault (.halted r) := by
  simp [step, State.cycle, h]

theorem step_of_fetch_error {s : State} {k : FaultRecord} (h : s.status = .running)
    (hf : s.fetch = .error k) : step s = .next (s.raise k) := by
  simp [step, State.cycle, h, hf]

theorem step_of_fetch_ok {s : State} {i : Instr} (h : s.status = .running) (hf : s.fetch = .ok i) :
    step s = exec i s := by
  simp [step, State.cycle, h, hf]

/-- A step that answers a next state began in a running core, and raised a fetch fault or ran the fetched instruction. -/
theorem step_eq_next {s t : State} (h : step s = .next t) :
    s.status = .running ∧
      ((∃ k, s.fetch = .error k ∧ t = s.raise k) ∨ (∃ i, s.fetch = .ok i ∧ exec i s = .next t)) := by
  cases hs : s.status with
  | halted r => rw [step_of_halted hs] at h; cases h
  | running =>
    refine ⟨rfl, ?_⟩
    cases hf : s.fetch with
    | error k =>
      rw [step_of_fetch_error hs hf] at h
      cases h
      exact .inl ⟨k, rfl, rfl⟩
    | ok i =>
      rw [step_of_fetch_ok hs hf] at h
      exact .inr ⟨i, rfl, h⟩

/-! ### The operations, as the `finish` of what they do -/

/-- What an instruction does before the cycle ends: the state after its writes, or the fault it raises. -/
def effect : Instr → State → Except FaultRecord State
  | .hlt, s => .ok s.haltNormally
  | .ret, s => match s.incSp with | .error k => .error k | .ok t => .ok (t.jump s.top)
  | .push a, s => s.push fun t => t.reg a
  | .pop a, s => (s.setReg a s.top).incSp
  | .prn a, s => .ok (s.emit (s.reg a))
  | .call a, s =>
    match s.push (fun _ => s.returnAddress) with | .error k => .error k | .ok t => .ok (t.jump (t.reg a))
  | .jmp a, s => .ok (s.jump (s.reg a))
  | .jeq a, s => .ok (s.branch s.fl.e a)
  | .jne a, s => .ok (s.branch (!s.fl.e) a)
  | .not a, s => .ok (s.setReg a (aluNot (s.reg a)))
  | .ldi a imm, s => .ok (s.setReg a imm)
  | .add a b, s => .ok (s.setReg a (aluAdd (s.reg a) (s.reg b)))
  | .mul a b, s => .ok (s.setReg a (aluMul (s.reg a) (s.reg b)))
  | .mod a b, s =>
    if s.reg b = 0#8 then .error (.divisionByZero s.pc b)
    else .ok (s.setReg a (aluMod (s.reg a) (s.reg b)))
  | .cmp a b, s => .ok (s.setFlags (Flags.compare (s.reg a) (s.reg b)))
  | .and a b, s => .ok (s.setReg a (aluAnd (s.reg a) (s.reg b)))
  | .or a b, s => .ok (s.setReg a (aluOr (s.reg a) (s.reg b)))
  | .xor a b, s => .ok (s.setReg a (aluXor (s.reg a) (s.reg b)))
  | .shl a b, s => .ok (s.setReg a (aluShl (s.reg a) (s.reg b)))
  | .shr a b, s => .ok (s.setReg a (aluShr (s.reg a) (s.reg b)))

/-- Every meaning is its effect followed by the end of the cycle (30_encoding.md R90). -/
theorem exec_eq_finish (i : Instr) (s : State) : exec i s = s.finish i.mnemonic (effect i s) := by
  cases i <;> rfl

/-- What executing an instruction can answer: its fault, with nothing written, or its writes and the end of the cycle. -/
theorem exec_eq_next {i : Instr} {s t : State} (h : exec i s = .next t) :
    (∃ k, effect i s = .error k ∧ t = s.raise k) ∨
      (∃ u, effect i s = .ok u ∧ t = u.endCycle i.mnemonic) :=
  State.finish_eq_next (exec_eq_finish i s ▸ h)

/-- CALL, as one case each: no room on the stack, or the push and the jump. -/
theorem effect_call (a : Reg) (s : State) :
    (s.sp = 0#8 ∧ effect (.call a) s = .error (.boundsViolation .stackPush (-1) s.pc)) ∨
    (s.sp ≠ 0#8 ∧ effect (.call a) s =
      .ok ((s.pushed fun _ => s.returnAddress).jump ((s.pushed fun _ => s.returnAddress).reg a))) := by
  rcases s.push_cases (fun _ => s.returnAddress) with ⟨h, hp⟩ | ⟨h, hp⟩
  · exact .inl ⟨h, by rw [effect, hp]⟩
  · exact .inr ⟨h, by rw [effect, hp]⟩

/-- RET, as one case each: SP cannot go up, or the pop and the jump. -/
theorem effect_ret (s : State) :
    (s.sp = 255#8 ∧ effect .ret s = .error (.boundsViolation .stackPop 256 s.pc)) ∨
    (s.sp ≠ 255#8 ∧ effect .ret s = .ok ((s.setSp (trunc8 (s.sp.toNat + 1))).jump s.top)) := by
  rcases s.incSp_cases with ⟨h, hp⟩ | ⟨h, hp⟩
  · exact .inl ⟨h, by rw [effect, hp]⟩
  · exact .inr ⟨h, by rw [effect, hp]⟩

theorem exec_of_effect_ok {i : Instr} {s u : State} (h : effect i s = .ok u) :
    exec i s = .next (u.endCycle i.mnemonic) := by
  rw [exec_eq_finish, h, State.finish_ok]

theorem exec_of_effect_error {i : Instr} {s : State} {k : FaultRecord} (h : effect i s = .error k) :
    exec i s = .next (s.raise k) := by
  rw [exec_eq_finish, h, State.finish_error]

end Sys2Proof.Machine
end

