-- ==== Sys2Proof/Tests/Slice0.lean ====
section
/-!
SUPPORT. The model's own tests: the refusals of the well-formedness check, one decoding for each constructor, at most two single
steps for each instruction, and for every statement with hypotheses a witness that they can be met together. The expected
results are those of 95_test_vectors.md, named V-..., or are read off the rule named.
-/

namespace Sys2Proof.Tests

open Sys2Proof.Machine

/-- Reset, with `bytes` in memory from `pc` on. -/
def atPc (pc : Nat) (bytes : List Byte) : State :=
  { State.reset with pc := pc, mem := Memory.writeList [] pc bytes }

/-- The state with `v` in the memory cell at `addr`. -/
def withCell (s : State) (addr : Nat) (v : Byte) : State := { s with mem := s.mem.write addr v }

/-- The state with the flags `f`. -/
def withFlags (s : State) (f : Flags) : State := { s with fl := f }

/-- What a step answers, if it is a next state. -/
def ran (s : State) : Option State :=
  match step s with
  | .next t => some t
  | _ => none

/-- A two-register ALU instruction at address 10 on R0 = `x`, R1 = `y`: R0 and `pc` afterwards. -/
def aluRun (op x y : Byte) : Option (Byte × Nat) :=
  (ran (((atPc 10 [op, 0, 1]).setReg 0 x).setReg 1 y)).map fun t => (t.reg 0, t.pc)

def onlyL : Flags := ⟨true, false, false⟩
def onlyG : Flags := ⟨false, true, false⟩
def onlyE : Flags := ⟨false, false, true⟩

/-! ### Well-formedness: an ill-formed term for each check (30_encoding.md R76 to R79) -/

theorem test_wf_refuses_a_of_one_operand : Mnemonic.push.badOperand 8 0 = some (.a, 8) := by decide
theorem test_wf_refuses_a_of_immediate_form : Mnemonic.ldi.badOperand 0x80 0 = some (.a, 0x80) := by decide
theorem test_wf_refuses_a_of_two_registers : Mnemonic.add.badOperand 255 0 = some (.a, 255) := by decide
theorem test_wf_refuses_b_of_two_registers : Mnemonic.add.badOperand 7 8 = some (.b, 8) := by decide
theorem test_wf_refuses_a_before_b : Mnemonic.cmp.badOperand 9 10 = some (.a, 9) := by decide
theorem test_wf_refuses_unknown_opcode : decodeOpcode 0xA1 = none := by decide
theorem test_wf_accepts_any_immediate : Mnemonic.ldi.wellFormed 0 200 = true := by decide
theorem test_wf_accepts_any_unused_byte : Mnemonic.hlt.wellFormed 255 255 = true := by decide

/-! ### Decoding: a word for each constructor, written from R70, R75 and R76 -/

theorem test_decode_hlt : decode 0b00000001#8 0x82#8 0xFF#8 = .ok .hlt := by rfl
theorem test_decode_ret : decode 0b00010001#8 0xFF#8 0xFF#8 = .ok .ret := by rfl
theorem test_decode_push : decode 0b01000101#8 0b00000111#8 0xFF#8 = .ok (.push 7) := by rfl
theorem test_decode_pop : decode 0b01000110#8 0b00000100#8 0xFF#8 = .ok (.pop 4) := by rfl
theorem test_decode_prn : decode 0b01000111#8 0b00000001#8 0xFF#8 = .ok (.prn 1) := by rfl
theorem test_decode_call : decode 0b01010000#8 0b00000001#8 0xFF#8 = .ok (.call 1) := by rfl
theorem test_decode_jmp : decode 0b01010100#8 0b00000011#8 0xFF#8 = .ok (.jmp 3) := by rfl
theorem test_decode_jeq : decode 0b01010101#8 0b00000010#8 0xFF#8 = .ok (.jeq 2) := by rfl
theorem test_decode_jne : decode 0b01010110#8 0b00000101#8 0xFF#8 = .ok (.jne 5) := by rfl
theorem test_decode_not : decode 0b01101001#8 0b00000001#8 0xFF#8 = .ok (.not 1) := by rfl
theorem test_decode_ldi : decode 0b10000010#8 0b00000110#8 0b11001000#8 = .ok (.ldi 6 200) := by rfl
theorem test_decode_add : decode 0b10100000#8 0b00000000#8 0b00000001#8 = .ok (.add 0 1) := by rfl
theorem test_decode_mul : decode 0b10100010#8 0b00000010#8 0b00000101#8 = .ok (.mul 2 5) := by rfl
theorem test_decode_mod : decode 0b10100100#8 0b00000111#8 0b00000000#8 = .ok (.mod 7 0) := by rfl
theorem test_decode_cmp : decode 0b10100111#8 0b00000011#8 0b00000100#8 = .ok (.cmp 3 4) := by rfl
theorem test_decode_and : decode 0b10101000#8 0b00000001#8 0b00000110#8 = .ok (.and 1 6) := by rfl
theorem test_decode_or : decode 0b10101010#8 0b00000101#8 0b00000010#8 = .ok (.or 5 2) := by rfl
theorem test_decode_xor : decode 0b10101011#8 0b00000100#8 0b00000011#8 = .ok (.xor 4 3) := by rfl
theorem test_decode_shl : decode 0b10101100#8 0b00000000#8 0b00000111#8 = .ok (.shl 0 7) := by rfl
theorem test_decode_shr : decode 0b10101101#8 0b00000110#8 0b00000001#8 = .ok (.shr 6 1) := by rfl

/-- The table's numbering: the opcode is bits 7:0, byte `a` bits 15:8, byte `b` bits 23:16. -/
theorem test_table_word_three_bytes : decodeTableWord 24 0xC80182 = some (.ldi 1 200) := by rfl

/-- The bits above the table's are 0, here byte `b` of a two-byte row. -/
theorem test_table_word_two_bytes : decodeTableWord 16 0xFF0345 = some (.push 3) := by rfl

theorem test_table_word_refused : decodeTableWord 8 0x00 = none := by rfl

theorem test_fetch_word_runs :
    (ran (State.reset.withFetchWord 24 0x2A0582)).map (fun t => (t.reg 5, t.pc)) = some (42, 3) := by decide

/-! ### The ALU instructions (95_test_vectors.md 2.2) -/

/-- V-A3. -/
theorem test_add_wraps : aluRun 0xA0 200 100 = some (44, 13) := by decide
/-- V-A5. -/
theorem test_add_same_register :
    (ran ((atPc 10 [0xA0, 0, 0]).setReg 0 100)).map (·.reg 0) = some 200 := by decide
/-- V-A8. -/
theorem test_mul_keeps_low_byte : aluRun 0xA2 255 255 = some (1, 13) := by decide
/-- V-A10. -/
theorem test_mul_wraps : aluRun 0xA2 13 20 = some (4, 13) := by decide
/-- V-A12. -/
theorem test_and : aluRun 0xA8 0xCC 0xAA = some (0x88, 13) := by decide
/-- V-A21. -/
theorem test_or : aluRun 0xAA 0xCC 0xAA = some (0xEE, 13) := by decide
/-- V-A23. -/
theorem test_xor : aluRun 0xAB 0xCC 0xAA = some (0x66, 13) := by decide
/-- V-A24. -/
theorem test_xor_same_register :
    (ran ((atPc 10 [0xAB, 0, 0]).setReg 0 0x5A)).map (·.reg 0) = some 0 := by decide
/-- V-D15 and V-C2: the byte after the operand is not read as one, and `pc` advances by 2. -/
theorem test_not :
    (ran ((atPc 10 [0x69, 1, 0xFF]).setReg 1 0x0F)).map (fun t => (t.reg 1, t.pc)) = some (0xF0, 12) := by decide
/-- V-A29. -/
theorem test_shl : aluRun 0xAC 0x81 1 = some (0x02, 13) := by decide
/-- V-A31. -/
theorem test_shl_by_eight : aluRun 0xAC 1 8 = some (0, 13) := by decide
/-- V-A38. -/
theorem test_shr : aluRun 0xAD 200 3 = some (25, 13) := by decide
/-- V-A37. -/
theorem test_shr_by_eight : aluRun 0xAD 0xFF 8 = some (0, 13) := by decide
/-- V-A43. -/
theorem test_mod : aluRun 0xA4 255 16 = some (15, 13) := by decide
/-- V-A44. -/
theorem test_mod_by_zero :
    (ran ((atPc 10 [0xA4, 0, 1]).setReg 0 9)).map (fun t => (t.status, t.reg 0, t.pc)) =
      some (.halted (.fault (.divisionByZero 10 1)), 9, 10) := by decide
/-- V-A17. -/
theorem test_cmp_is_unsigned :
    (ran ((atPc 10 [0xA7, 0, 1]).setReg 1 255)).map (fun t => (t.fl, t.reg 0, t.pc)) = some (onlyL, 0, 13) := by decide
/-- V-A20. -/
theorem test_cmp_overwrites_all_flags :
    (ran (withFlags (((atPc 10 [0xA7, 0, 1]).setReg 0 5).setReg 1 5) onlyL)).map (·.fl) = some onlyE := by decide

/-! ### The stack instructions (95_test_vectors.md 2.3) -/

/-- V-S3. -/
theorem test_push_sp :
    (ran (atPc 10 [0x45, 7])).map (fun t => (t.sp, t.mem.read 0xF3, t.pc)) = some (0xF3, 0xF3, 12) := by decide
/-- V-S11. -/
theorem test_push_over_own_operand :
    (ran (((atPc 10 [0x45, 0]).setSp 12).setReg 0 1)).map (fun t => (t.sp, t.mem.read 11, t.pc)) =
      some (11, 1, 12) := by decide
/-- V-S2. -/
theorem test_pop :
    (ran (withCell ((atPc 10 [0x46, 4]).setSp 0xF3) 0xF3 5)).map
      (fun t => (t.reg 4, t.sp, t.mem.read 0xF3, t.pc)) = some (5, 0xF4, 5, 12) := by decide
/-- V-S6. -/
theorem test_pop_sp_past_top :
    (ran (withCell ((atPc 10 [0x46, 7]).setSp 0xF0) 0xF0 0xFF)).map (fun t => (t.status, t.sp, t.pc)) =
      some (.halted (.fault (.boundsViolation .stackPop 256 10)), 0xF0, 10) := by decide
/-- V-S13. -/
theorem test_call_sp :
    (ran (atPc 0 [0x50, 7])).map (fun t => (t.mem.read 0xF3, t.sp, t.pc)) = some (2, 0xF3, 0xF3) := by decide
/-- V-S14. -/
theorem test_call_at_zero :
    (ran (((atPc 10 [0x50, 1]).setSp 0).setReg 1 40)).map (fun t => (t.status, t.sp, t.pc)) =
      some (.halted (.fault (.boundsViolation .stackPush (-1) 10)), 0, 10) := by decide
/-- V-S15. -/
theorem test_ret :
    (ran (withCell ((atPc 10 [0x11]).setSp 0xF3) 0xF3 8)).map (fun t => (t.sp, t.pc)) = some (0xF4, 8) := by decide
/-- V-S16. -/
theorem test_ret_past_top :
    (ran (withCell ((atPc 10 [0x11]).setSp 255) 255 3)).map (fun t => (t.status, t.sp, t.pc)) =
      some (.halted (.fault (.boundsViolation .stackPop 256 10)), 255, 10) := by decide

/-! ### Jumps (95_test_vectors.md 2.4) -/

/-- V-J1. -/
theorem test_jmp : (ran ((atPc 30 [0x54, 3]).setReg 3 12)).map (·.pc) = some 12 := by decide
/-- V-J2. -/
theorem test_jeq_taken : (ran (withFlags ((atPc 5 [0x55, 2]).setReg 2 20) onlyE)).map (·.pc) = some 20 := by decide
/-- V-J3. -/
theorem test_jeq_not_taken : (ran (withFlags ((atPc 12 [0x55, 2]).setReg 2 20) onlyG)).map (·.pc) = some 14 := by decide
/-- V-J4. -/
theorem test_jne_taken : (ran (withFlags ((atPc 20 [0x56, 3]).setReg 3 12) onlyL)).map (·.pc) = some 12 := by decide
/-- V-J5. -/
theorem test_jne_not_taken : (ran (withFlags ((atPc 20 [0x56, 3]).setReg 3 12) onlyE)).map (·.pc) = some 22 := by decide

/-! ### Print, halt, load-immediate (95_test_vectors.md 2.1 and 2.5) -/

/-- V-P2. -/
theorem test_prn_sp : (ran (atPc 0 [0x47, 7])).map (·.out) = some [244] := by decide
/-- V-D14. -/
theorem test_prn_ignores_next_byte :
    (ran ((atPc 0 [0x47, 0, 0xFF]).setReg 0 4)).map (fun t => (t.out, t.pc)) = some ([4], 2) := by decide
/-- V-P3. -/
theorem test_hlt :
    (ran (atPc 11 [0x01])).map (fun t => (t.status, t.haltedNormally, t.pc, t.out)) =
      some (.halted .hlt, true, 12, []) := by decide
/-- V-D4: a HLT whose operand window leaves the memory faults. -/
theorem test_hlt_at_254 :
    (ran (atPc 254 [0x01])).map (fun t => (t.status, t.haltedNormally)) =
      some (.halted (.fault (.boundsViolation .operandFetch 256 254)), false) := by decide
/-- V-D9. -/
theorem test_ldi_at_253 :
    (ran (atPc 253 [0x82, 0, 7])).map (fun t => (t.reg 0, t.pc, t.status)) = some (7, 256, .running) := by decide
/-- V-D13. -/
theorem test_ldi_any_immediate : (ran (atPc 0 [0x82, 0, 0xC8])).map (fun t => (t.reg 0, t.pc)) = some (200, 3) := by decide

/-! ### The text forms -/

/-- V-P1, V-P2 and V-P6. -/
theorem test_render :
    renderOutput [72, 244, 0] = ['7', '2', '\n', '2', '4', '4', '\n', '0', '\n'] := by decide
/-- V-D2, the pattern of the diagnostic (60_exceptions.md R202). -/
theorem test_binary_text : binaryText 0xC0 = ['1', '1', '0', '0', '0', '0', '0', '0'] := by decide
/-- 10_state.md R33. -/
theorem test_flags_as_number : (onlyL.toByte, onlyG.toByte, onlyE.toByte) = (4, 2, 1) := by decide
/-- 30_encoding.md R100. -/
theorem test_asm_text : asmText (.ldi 0 8) = ['L', 'D', 'I', ' ', 'R', '0', ',', '8'] := by decide
/-- 60_exceptions.md R201. -/
theorem test_fault_codes :
    [FaultRecord.unknownOpcode 0 0, .badRegister 0 0 .a 8, .boundsViolation .stackPush (-1) 0,
      .divisionByZero 0 0, .unsupportedAluOp].map FaultRecord.code = [1, 2, 3, 4, 5] := by decide

/-! ### Witnesses: decoding and the execution cycle -/

theorem witness_AcceptedBytesAreAnEncoding : decode 0xA0 0 1 = .ok (.add 0 1) := by rfl
theorem witness_AcceptedBytesAreAnEncoding_unused_bytes : decode 0x01 0xFF 0xFF = .ok .hlt := by rfl
theorem witness_UnknownOpcodes_zero : decode 0x00 0 0 = .error (.unknownOpcode 0x00) := by rfl
theorem witness_UnknownOpcodes_last : decode 0xFF 0 0 = .error (.unknownOpcode 0xFF) := by rfl
theorem witness_OpcodeMap_same : opcodeOf .shr = opcodeOf .shr := by rfl
theorem witness_OperandBytes_a : Mnemonic.shr.badOperand 8 8 = some (.a, 8) := by decide
theorem witness_OperandBytes_b : Mnemonic.shr.badOperand 7 255 = some (.b, 255) := by decide
theorem witness_OperandBytes_wellFormed : Mnemonic.shr.wellFormed 7 7 = true := by decide

theorem witness_StepRunsDecodedInstruction :
    let s := atPc 253 [0x82, 0, 7]
    s.status = .running ∧ s.pc ≤ 253 ∧
      decode (s.mem.read s.pc) (s.mem.read (s.pc + 1)) (s.mem.read (s.pc + 2)) = .ok (.ldi 0 7) :=
  ⟨rfl, by decide, rfl⟩

theorem witness_StepsExactlyWhileRunning_running : (atPc 0 [1]).status = .running := by rfl
theorem witness_StepsExactlyWhileRunning_halted :
    ((atPc 0 []).raise (.unknownOpcode 0 0)).status = .halted (.fault (.unknownOpcode 0 0)) := by rfl

theorem witness_FetchChecks_opcodeFetch : (atPc 256 []).status = .running ∧ 255 < (atPc 256 []).pc := by decide
theorem witness_FetchChecks_unknown :
    let s := atPc 255 []
    s.status = .running ∧ s.pc ≤ 255 ∧ s.mem.read s.pc ∉ opcodes := by decide
theorem witness_FetchChecks_window_254 :
    let s := atPc 254 [0x01]
    s.status = .running ∧ 253 < s.pc ∧ s.pc ≤ 255 ∧ s.mem.read s.pc ∈ opcodes := by decide
theorem witness_FetchChecks_window_255 :
    let s := atPc 255 [0x01]
    s.status = .running ∧ 253 < s.pc ∧ s.pc ≤ 255 ∧ s.mem.read s.pc ∈ opcodes := by decide
theorem witness_FetchChecks_register_a :
    let s := atPc 253 [0xA0, 9, 10]
    s.status = .running ∧ s.pc ≤ 253 ∧ s.mem.read s.pc = opcodeOf .add ∧
      Mnemonic.add.badOperand (s.mem.read (s.pc + 1)) (s.mem.read (s.pc + 2)) = some (.a, 9) := by decide
theorem witness_FetchChecks_register_b :
    let s := atPc 0 [0xA0, 0, 9]
    s.status = .running ∧ s.pc ≤ 253 ∧ s.mem.read s.pc = opcodeOf .add ∧
      Mnemonic.add.badOperand (s.mem.read (s.pc + 1)) (s.mem.read (s.pc + 2)) = some (.b, 9) := by decide

/-! The faulting steps below meet the hypotheses of FaultsArePrecise and of each case of FaultsHaveTheirCause. -/

/-- V-D1. -/
theorem witness_Faults_unknownOpcode :
    step (atPc 0 []) = .next ((atPc 0 []).raise (.unknownOpcode 0 0)) := by rfl
/-- V-D10. -/
theorem witness_Faults_badRegister_a :
    step (atPc 0 [0x82, 8, 5]) = .next ((atPc 0 [0x82, 8, 5]).raise (.badRegister 0x82 0 .a 8)) := by rfl
/-- V-D11. -/
theorem witness_Faults_badRegister_b :
    step (atPc 0 [0xA0, 0, 9]) = .next ((atPc 0 [0xA0, 0, 9]).raise (.badRegister 0xA0 0 .b 9)) := by rfl
/-- V-D7. -/
theorem witness_Faults_opcodeFetch :
    step (atPc 256 []) = .next ((atPc 256 []).raise (.boundsViolation .opcodeFetch 256 256)) := by rfl
/-- V-D4. -/
theorem witness_Faults_operandFetch_254 :
    step (atPc 254 [1]) = .next ((atPc 254 [1]).raise (.boundsViolation .operandFetch 256 254)) := by rfl
/-- V-D5. -/
theorem witness_Faults_operandFetch_255 :
    step (atPc 255 [1]) = .next ((atPc 255 [1]).raise (.boundsViolation .operandFetch 256 255)) := by rfl
/-- V-S7. -/
theorem witness_Faults_stackPush :
    step ((atPc 10 [0x45, 0]).setSp 0) =
      .next (((atPc 10 [0x45, 0]).setSp 0).raise (.boundsViolation .stackPush (-1) 10)) := by rfl
/-- V-S8. -/
theorem witness_Faults_stackPop :
    step ((atPc 10 [0x46, 1]).setSp 255) =
      .next (((atPc 10 [0x46, 1]).setSp 255).raise (.boundsViolation .stackPop 256 10)) := by rfl
/-- V-S6. -/
theorem witness_Faults_stackPop_sp :
    step (withCell ((atPc 10 [0x46, 7]).setSp 0xF0) 0xF0 0xFF) =
      .next ((withCell ((atPc 10 [0x46, 7]).setSp 0xF0) 0xF0 0xFF).raise (.boundsViolation .stackPop 256 10)) := by rfl
/-- V-A46. -/
theorem witness_Faults_divisionByZero :
    step (atPc 0 [0xA4, 0, 0]) = .next ((atPc 0 [0xA4, 0, 0]).raise (.divisionByZero 0 0)) := by rfl

theorem witness_PcAdvance_clear :
    ∃ t, exec (.ldi 0 7) (atPc 253 []) = .next t ∧ (∀ k, t.status ≠ .halted (.fault k)) ∧
      pcControl (Instr.opcode (.ldi 0 7)) = false :=
  ⟨_, rfl, (fun _ h => by cases h), rfl⟩
theorem witness_PcAdvance_set :
    ∃ t, exec (.jne 3) (atPc 253 []) = .next t ∧ (∀ k, t.status ≠ .halted (.fault k)) ∧
      pcControl (Instr.opcode (.jne 3)) = true :=
  ⟨_, rfl, (fun _ h => by cases h), rfl⟩

/-- V-S11's state, for the PUSH clause. -/
theorem witness_OwnOperandByteIsLatched_push :
    let s := (atPc 10 [0x45, 0]).setSp 12
    s.mem.wf ∧ s.status = .running ∧ s.pc ≤ 253 ∧ s.sp.toNat = s.pc + 2 ∧ (0 : Reg) ≠ 7 ∧
      s.mem.read (s.pc + 1) = regByte 0 ∧ s.mem.read s.pc = 0x45#8 := by decide
/-- At the highest address an instruction may stand at, for the CALL clause. -/
theorem witness_OwnOperandByteIsLatched_call :
    let s := (atPc 253 [0x50, 6]).setSp 255
    s.mem.wf ∧ s.status = .running ∧ s.pc ≤ 253 ∧ s.sp.toNat = s.pc + 2 ∧ (6 : Reg) ≠ 7 ∧
      s.mem.read (s.pc + 1) = regByte 6 ∧ s.mem.read s.pc = 0x50#8 := by decide

/-! ### Witnesses: frames -/

/-- A next state, for the statements whose one hypothesis is that the instruction gives one. -/
theorem witness_frames_pop : ∃ t, exec (.pop 3) (atPc 10 []) = .next t := ⟨_, rfl⟩
theorem witness_frames_push : ∃ t, exec (.push 7) (atPc 10 []) = .next t := ⟨_, rfl⟩
theorem witness_frames_call : ∃ t, exec (.call 1) (atPc 10 []) = .next t := ⟨_, rfl⟩
theorem witness_frames_prn : ∃ t, exec (.prn 1) (atPc 10 []) = .next t := ⟨_, rfl⟩
theorem witness_frames_hlt : ∃ t, exec .hlt (atPc 10 []) = .next t := ⟨_, rfl⟩
theorem witness_frames_mod : ∃ t, exec (.mod 0 1) (atPc 10 []) = .next t := ⟨_, rfl⟩

theorem witness_Flags_not_cmp :
    (∃ t, exec (.add 0 1) (atPc 10 []) = .next t) ∧ ∀ a b, Instr.add 0 1 ≠ .cmp a b :=
  ⟨⟨_, rfl⟩, fun _ _ h => by cases h⟩
theorem witness_Flags_cmp : ∃ t, exec (.cmp 0 7) (atPc 10 []) = .next t := ⟨_, rfl⟩
theorem witness_Flags_not_jump :
    (∃ t, exec (.cmp 0 1) (atPc 10 []) = .next t) ∧ (∀ a, Instr.cmp 0 1 ≠ .jeq a) ∧ ∀ a, Instr.cmp 0 1 ≠ .jne a :=
  ⟨⟨_, rfl⟩, (fun _ h => by cases h), (fun _ h => by cases h)⟩
theorem witness_LessAndGreater_jump : ∃ t, step (withFlags (atPc 10 [0x56, 3]) onlyL) = .next t := ⟨_, rfl⟩
theorem witness_LessAndGreater_cmp : ∃ t, step (withFlags (atPc 10 [0xA7, 3, 7]) onlyG) = .next t := ⟨_, rfl⟩
theorem witness_Status_hlt_step :
    (∃ t, step (atPc 253 [0x01]) = .next t ∧ t.status = .halted .hlt) ∧
      (atPc 253 [0x01]).mem.read 253 = opcodeOf .hlt := ⟨⟨_, rfl, rfl⟩, rfl⟩
theorem witness_Status_other_step :
    ∃ t, step (atPc 254 [0x01]) = .next t ∧ t.status ≠ .halted .hlt := ⟨_, rfl, fun h => by cases h⟩

/-! ### Witnesses: results -/

theorem witness_NotTwice : ∃ t, exec (.not 7) (atPc 10 []) = .next t := ⟨_, rfl⟩
theorem witness_Shift_eight : 8 ≤ (((atPc 10 []).setReg 1 8).reg 1).toNat := by decide
theorem witness_Shift_whole_register : 8 ≤ (((atPc 10 []).setReg 1 255).reg 1).toNat := by decide
theorem witness_ModWritesRemainder_one : ((atPc 10 []).setReg 1 1).reg 1 ≠ 0#8 := by decide
theorem witness_ModByZeroRaises : (atPc 10 []).reg 1 = 0#8 := by decide
theorem witness_PushStoresBelowSp_lowest : ((atPc 10 []).setSp 1).mem.wf ∧ ((atPc 10 []).setSp 1).sp ≠ 0#8 := by decide
theorem witness_PushAtZeroRaises : ((atPc 10 []).setSp 0).sp = 0#8 := by decide
theorem witness_PopLoadsFromSp_highest : (6 : Reg) ≠ 7 ∧ ((atPc 10 []).setSp 254).sp ≠ 255#8 := by decide
theorem witness_PopIntoSp_highest :
    let s := withCell (atPc 10 []) 0xF4 254
    s.mem.read s.sp.toNat ≠ 255#8 := by decide
theorem witness_PopPastTop_other :
    let s := (atPc 10 []).setSp 255
    if (1 : Reg) = 7 then s.mem.read s.sp.toNat = 255#8 else s.sp = 255#8 := by decide
theorem witness_PopPastTop_sp :
    let s := withCell (atPc 10 []) 0xF4 255
    if (7 : Reg) = 7 then s.mem.read s.sp.toNat = 255#8 else s.sp = 255#8 := by decide
theorem witness_CallPushesReturnAddress_highest :
    (atPc 253 []).mem.wf ∧ (atPc 253 []).sp ≠ 0#8 ∧ (atPc 253 []).pc ≤ 253 := by decide
theorem witness_RetPopsIntoPc_highest : ((atPc 10 []).setSp 254).sp ≠ 255#8 := by decide
theorem witness_RetPastTopRaises : ((atPc 10 []).setSp 255).sp = 255#8 := by decide
theorem witness_PushThenPop_highest :
    ((atPc 10 []).setSp 255).mem.wf ∧ ((atPc 10 []).setSp 255).sp ≠ 0#8 := by decide
/-- A subroutine that changed a register and another cell in between. -/
theorem witness_RetResumesAfterCall :
    ∃ t u, (atPc 253 []).mem.wf ∧ (atPc 253 []).sp ≠ 0#8 ∧ (atPc 253 []).pc ≤ 253 ∧
      exec (.call 1) (atPc 253 []) = .next t ∧ u = (withCell t 0x20 9).setReg 2 5 ∧
      u.sp = t.sp ∧ u.mem.read u.sp.toNat = t.mem.read t.sp.toNat :=
  ⟨_, _, by decide, by decide, by decide, rfl, rfl, rfl, rfl⟩
theorem witness_CmpThenJump : ∃ t, exec (.cmp 3 3) (atPc 253 []) = .next t := ⟨_, rfl⟩

/-! ### Witnesses: reset, images and the invariant -/

theorem witness_Boot_full : (List.replicate 256 (0xFF#8 : Byte)).length ≤ 256 := by rw [List.length_replicate]
theorem witness_Boot_too_long : 256 < (List.replicate 257 (0xFF#8 : Byte)).length := by rw [List.length_replicate]; decide
theorem witness_InvariantAtBoot : ∃ t, State.boot [0x82, 0, 7, 0x01] = .next t := ⟨_, rfl⟩

/-- A state that is not the reset state, at the end of the memory, with a flag set. -/
def late : State := withFlags (atPc 256 []) onlyE

theorem late_inv : late.Inv := ⟨by decide, by decide, by decide, fun _ h => by cases h⟩

theorem witness_StepKeepsInvariant : late.Inv ∧ ∃ t, step late = .next t := ⟨late_inv, ⟨_, rfl⟩⟩

/-- A halted core whose record names its `pc` meets the invariant too. -/
theorem faulted_inv : (late.raise (.boundsViolation .opcodeFetch 256 256)).Inv :=
  ⟨by decide, by decide, by decide, fun _ h => by cases h; rfl⟩

theorem witness_EveryRun : ∃ s t, State.boot [0x82, 0, 7, 0x01] = .next s ∧ Reaches s t ∧ t.pc = 3 :=
  ⟨_, _, rfl, .next .start rfl, rfl⟩

/-- An image that jumps to the last place an instruction may stand and runs on past the end of the memory. -/
def pastTheEnd : List Byte := [0x82, 0, 253, 0x54, 0] ++ List.replicate 248 0 ++ [0x82, 1, 7]

/-- What the core is started with from that image. -/
def nearTheEnd : State :=
  { State.reset with mem := [(0, 0x82), (2, 253), (3, 0x54), (253, 0x82), (254, 1), (255, 7)] }

set_option maxRecDepth 4000 in
theorem boot_pastTheEnd : State.boot pastTheEnd = .next nearTheEnd := by rfl

theorem witness_EveryRun_opcodeFetch :
    ∃ t, State.boot pastTheEnd = .next nearTheEnd ∧ Reaches nearTheEnd t ∧
      t.status = .halted (.fault (.boundsViolation .opcodeFetch 256 256)) :=
  ⟨_, boot_pastTheEnd, .next (.next (.next (.next .start rfl) rfl) rfl) rfl, rfl⟩

end Sys2Proof.Tests
end

section
/-!
PROOFS. The flags and the output stream (10_state.md R31, R38) and the state after reset (R30). Both parts of the state are
followed by one commuting diagram: an operation run with other flags and another stream does what it did before, writes its own
flags and prints its own byte. What it leaves of either part is the diagram for the values it already held.
-/

namespace Sys2Proof.Machine

/-! ### The state with other flags and another output stream -/

/-- `s` with the flags and the output stream replaced. -/
def State.withFlagsOut (s : State) (f : Flags) (o : List Byte) : State := { s with fl := f, out := o }

@[simp] theorem State.withFlagsOut_fl (s : State) (f : Flags) (o : List Byte) : (s.withFlagsOut f o).fl = f := rfl

/-- The flags instruction `i` leaves when it is run in `s` with the flags `f`: only CMP computes new ones. -/
def flagsAfter (i : Instr) (s : State) (f : Flags) : Flags :=
  match i with
  | .cmp a b => Flags.compare (s.reg a) (s.reg b)
  | _ => f

theorem flagsAfter_of_ne_cmp {i : Instr} (h : ∀ a b, i ≠ .cmp a b) (s : State) (f : Flags) :
    flagsAfter i s f = f := by
  cases i with
  | cmp a b => exact absurd rfl (h a b)
  | _ => rfl

/-- The output stream instruction `i` leaves when it is run in `s` with the stream `o`: only PRN appends to it. -/
def outAfter (i : Instr) (s : State) (o : List Byte) : List Byte :=
  match i with
  | .prn a => o ++ [s.reg a]
  | _ => o

/-- Running `i` in `s` with the flags `f` decides as before: `i` is no conditional jump, or Equal is the same. -/
def TestsAlike (i : Instr) (s : State) (f : Flags) : Prop :=
  ((∀ a, i ≠ .jeq a) ∧ ∀ a, i ≠ .jne a) ∨ f.e = s.fl.e

/-! ### The shared operations do not look at the flags or the stream -/

theorem State.endCycle_withFlagsOut (s : State) (f : Flags) (o : List Byte) (m : Mnemonic) :
    (s.withFlagsOut f o).endCycle m = (s.endCycle m).withFlagsOut f o := by
  unfold State.endCycle
  split <;> rfl

theorem State.branch_withFlagsOut (s : State) (f : Flags) (o : List Byte) (c : Bool) (a : Reg) :
    (s.withFlagsOut f o).branch c a = (s.branch c a).withFlagsOut f o := by
  cases c <;> rfl

theorem State.pushed_withFlagsOut (s : State) (f : Flags) (o : List Byte) {value : State → Byte}
    (hv : ∀ t : State, value (t.withFlagsOut f o) = value t) :
    (s.withFlagsOut f o).pushed value = (s.pushed value).withFlagsOut f o := by
  have hval : value ((s.withFlagsOut f o).setSp (trunc8 (s.sp.toNat - 1))) =
      value (s.setSp (trunc8 (s.sp.toNat - 1))) := hv (s.setSp _)
  exact congrArg (((s.setSp _).withFlagsOut f o).store _) hval

theorem State.push_withFlagsOut (s : State) (f : Flags) (o : List Byte) {value : State → Byte}
    (hv : ∀ t : State, value (t.withFlagsOut f o) = value t) :
    (s.withFlagsOut f o).push value = (s.push value).map (·.withFlagsOut f o) := by
  by_cases h : s.sp = 0#8
  · rw [State.push_zero h, State.push_zero (s := s.withFlagsOut f o) h]
    rfl
  · rw [State.push_ok h, State.push_ok (s := s.withFlagsOut f o) h, s.pushed_withFlagsOut f o hv]
    rfl

theorem State.incSp_withFlagsOut (s : State) (f : Flags) (o : List Byte) :
    (s.withFlagsOut f o).incSp = s.incSp.map (·.withFlagsOut f o) := by
  by_cases h : s.sp = 255#8
  · rw [State.incSp_top h, State.incSp_top (s := s.withFlagsOut f o) h]
    rfl
  · rw [State.incSp_ok h, State.incSp_ok (s := s.withFlagsOut f o) h]
    rfl

/-! ### The diagram for the effect and for the whole operation -/

/-- With other flags and another stream, an effect that decides as before is the same up to those two parts. -/
theorem effect_withFlagsOut {i : Instr} {s : State} {f : Flags} (hf : TestsAlike i s f) (o : List Byte) :
    effect i (s.withFlagsOut f o) =
      (effect i s).map (·.withFlagsOut (flagsAfter i s f) (outAfter i s o)) := by
  cases i with
  | push a => exact s.push_withFlagsOut f o fun _ => rfl
  | pop a => exact (s.setReg a s.top).incSp_withFlagsOut f o
  | call a =>
    have hp : (s.withFlagsOut f o).push (fun _ => (s.withFlagsOut f o).returnAddress) =
        (s.push fun _ => s.returnAddress).map (·.withFlagsOut f o) := s.push_withFlagsOut f o fun _ => rfl
    rw [effect, effect, hp]
    cases s.push fun _ => s.returnAddress <;> rfl
  | ret =>
    rw [effect, effect, s.incSp_withFlagsOut f o]
    cases s.incSp <;> rfl
  | mod a b =>
    by_cases h : s.reg b = 0#8
    · rw [effect, effect, if_pos h, if_pos (show (s.withFlagsOut f o).reg b = 0#8 from h)]
      rfl
    · rw [effect, effect, if_neg h, if_neg (show (s.withFlagsOut f o).reg b ≠ 0#8 from h)]
      rfl
  | jeq a =>
    have he : f.e = s.fl.e := hf.resolve_left fun h => h.1 a rfl
    rw [effect, effect, State.withFlagsOut_fl, he, State.branch_withFlagsOut]
    rfl
  | jne a =>
    have he : f.e = s.fl.e := hf.resolve_left fun h => h.2 a rfl
    rw [effect, effect, State.withFlagsOut_fl, he, State.branch_withFlagsOut]
    rfl
  | _ => rfl

/-- An instruction that faults neither compares nor prints. -/
theorem flagsAfter_outAfter_of_effect_error {i : Instr} {s : State} {k : FaultRecord} (h : effect i s = .error k)
    (f : Flags) (o : List Byte) : flagsAfter i s f = f ∧ outAfter i s o = o := by
  cases i with
  | cmp a b => cases h
  | prn a => cases h
  | _ => exact ⟨rfl, rfl⟩

theorem exec_withFlagsOut {i : Instr} {s t : State} {f : Flags} (h : exec i s = .next t)
    (hf : TestsAlike i s f) (o : List Byte) :
    exec i (s.withFlagsOut f o) = .next (t.withFlagsOut (flagsAfter i s f) (outAfter i s o)) := by
  have he := effect_withFlagsOut hf o
  rcases exec_eq_next h with ⟨k, hk, rfl⟩ | ⟨u, hu, rfl⟩
  · obtain ⟨hfl, hout⟩ := flagsAfter_outAfter_of_effect_error hk f o
    rw [hk] at he
    rw [exec_of_effect_error he, hfl, hout]
    rfl
  · rw [hu] at he
    rw [exec_of_effect_ok he, State.endCycle_withFlagsOut]

/-! ### What an instruction leaves of the two parts, and what of them it reads -/

/-- An operation run with the flags and the stream it had ends as it did. -/
theorem eq_withFlagsOut_of_exec {i : Instr} {s t : State} (h : exec i s = .next t) :
    t = t.withFlagsOut (flagsAfter i s s.fl) (outAfter i s s.out) :=
  Host.Outcome.next.inj (h.symm.trans (exec_withFlagsOut h (.inr rfl) s.out))

theorem exec_fl {i : Instr} {s t : State} (h : exec i s = .next t) : t.fl = flagsAfter i s s.fl :=
  congrArg State.fl (eq_withFlagsOut_of_exec h)

theorem exec_out {i : Instr} {s t : State} (h : exec i s = .next t) : t.out = outAfter i s s.out :=
  congrArg State.out (eq_withFlagsOut_of_exec h)

/-- The flags alone replaced. -/
theorem exec_withFlags {i : Instr} {s t : State} {f : Flags} (h : exec i s = .next t)
    (hf : TestsAlike i s f) :
    exec i { s with fl := f } = .next { t with fl := flagsAfter i s f } := by
  have hw := exec_withFlagsOut h hf s.out
  rw [← exec_out h] at hw
  exact hw

/-- The output stream alone replaced. -/
theorem exec_withOut {i : Instr} {s t : State} (h : exec i s = .next t) (o : List Byte) :
    exec i { s with out := o } = .next { t with out := outAfter i s o } := by
  have hw := exec_withFlagsOut h (.inr rfl) o
  rw [← exec_fl h] at hw
  exact hw

/-- CMP overwrites all three flags, so it does the same whatever they held (40_alu.md R113). -/
theorem exec_cmp_withFlags (a b : Reg) (s : State) (f : Flags) :
    exec (.cmp a b) { s with fl := f } = exec (.cmp a b) s := rfl

/-! ### The obligations -/

/-- Settles O16: the flags an instruction leaves are `flagsAfter`, CMP's are those of a comparison, and an instruction that is
no conditional jump runs alike under any flags. -/
theorem flagsAreWrittenByCmpAndReadByJumps : Obligations.FlagsAreWrittenByCmpAndReadByJumps := by
  refine ⟨fun i s t h hcmp => ?_, fun a b s t h => ⟨?_, fun f => ?_⟩, fun i s t f h hjeq hjne => ?_⟩
  · rw [exec_fl h, flagsAfter_of_ne_cmp hcmp]
  · have hfl : t.fl = Flags.compare (s.reg a) (s.reg b) := exec_fl h
    simpa [hfl] using Flags.compare_cases (s.reg a) (s.reg b)
  · rw [exec_cmp_withFlags, h]
  · exact ⟨_, exec_withFlags h (.inl ⟨hjeq, hjne⟩)⟩

/-- Settles O19: an instruction appends what it prints to whatever stream it is given and is otherwise the same. -/
theorem outputIsAppendedByPrnAndNeverRead : Obligations.OutputIsAppendedByPrnAndNeverRead := by
  refine ⟨fun i s t h => ?_, fun i s t o h => ⟨_, exec_withOut h o, rfl⟩, rfl⟩
  rw [exec_out h]
  cases i with
  | prn a => rfl
  | _ => exact (List.append_nil s.out).symm

/-- Settles O56, reading the three fields off the reset state (10_state.md R30). -/
theorem resetIsRunningAtZero : Obligations.ResetIsRunningAtZero := ⟨rfl, rfl, rfl⟩

end Sys2Proof.Machine
end

section
/-!
PROOFS. Decoding and encoding (30_encoding.md R70 to R86). The three formats are said once each; from them follow what the
decoder answers on the bytes of an encoding, and the two ways it can answer on any operand bytes.
-/

namespace Sys2Proof

/-! ### The formats on the bytes of an encoding -/

@[simp] theorem decodeF1R_regByte (op : Byte) (r : Reg) (k : Reg → Instr) :
    decodeF1R op (regByte r) k = .ok (k r) := withReg_regByte ..

@[simp] theorem decodeF2RI_regByte (op : Byte) (r : Reg) (b : Byte) (k : Reg → Byte → Instr) :
    decodeF2RI op (regByte r) b k = .ok (k r b) := withReg_regByte ..

@[simp] theorem decodeF2RR_regByte (op : Byte) (r q : Reg) (k : Reg → Reg → Instr) :
    decodeF2RR op (regByte r) (regByte q) k = .ok (k r q) := by
  simp [decodeF2RR]

/-- The operands of an encoding give the instruction back, whatever stands in an unused position. -/
theorem decodeOperands_operandBytes (i : Instr) (op u v : Byte) :
    decodeOperands i.mnemonic op (i.operandBytes.getD 0 u) (i.operandBytes.getD 1 v) = .ok i := by
  cases i with
  | hlt | ret => rfl
  | push a | pop a | prn a | call a | jmp a | jeq a | jne a | not a => exact decodeF1R_regByte ..
  | ldi a imm => exact decodeF2RI_regByte ..
  | add a b | mul a b | mod a b | cmp a b | and a b | or a b | xor a b | shl a b | shr a b =>
    exact decodeF2RR_regByte ..

/-- The latched window: the opcode, then the operand bytes, with what follows in the unused positions. -/
theorem windowOf_eq (i : Instr) (rest : List Byte) : ∃ u v,
    windowOf i rest = (i.opcode, i.operandBytes.getD 0 u, i.operandBytes.getD 1 v) := by
  cases i with
  | hlt | ret => exact ⟨rest.getD 0 0, rest.getD 1 0, rfl⟩
  | push a | pop a | prn a | call a | jmp a | jeq a | jne a | not a => exact ⟨0, rest.getD 0 0, rfl⟩
  | _ => exact ⟨0, 0, rfl⟩

/-! ### What a format can answer -/

/-- The two answers on the operand bytes `a` and `b` of operation `m`: an instruction of that operation whose operand bytes
they begin with, or the rejection of the first ill-formed byte (R77). -/
def OperandAnswer (m : Mnemonic) (op a b : Byte) (r : Except DecodeError Instr) : Prop :=
  (m.badOperand a b = none ∧ ∃ i, r = .ok i ∧ i.mnemonic = m ∧ ∃ rest, i.operandBytes ++ rest = [a, b]) ∨
  ∃ pos v, m.badOperand a b = some (pos, v) ∧ r = .error (.badRegister op pos v)

/-- The operand check, kind by kind. -/
theorem badOperand_of_kinds {m : Mnemonic} {ka kb : OperandKind} (h : m.operandKinds = (ka, kb)) (a b : Byte) :
    m.badOperand a b =
      if !ka.admits a then some (.a, a) else if !kb.admits b then some (.b, b) else none := by
  rw [Mnemonic.badOperand, h]

@[simp] theorem admits_reg_regByte (r : Reg) : OperandKind.reg.admits (regByte r) = true := by
  simp [OperandKind.admits]

theorem admits_reg_of_le {v : Byte} (h : 8 ≤ v.toNat) : OperandKind.reg.admits v = false := by
  simpa [OperandKind.admits] using h

theorem decodeF1R_answer {m : Mnemonic} (hm : m.operandKinds = (.reg, .unused)) (op a b : Byte) {k : Reg → Instr}
    (hk : ∀ r, (k r).mnemonic = m ∧ (k r).operandBytes = [regByte r]) :
    OperandAnswer m op a b (decodeF1R op a k) := by
  rcases withReg_cases op .a a (fun r => .ok (k r)) with ⟨r, rfl, h⟩ | ⟨ha, h⟩
  · refine .inl ⟨?_, k r, h, (hk r).1, [b], by rw [(hk r).2]; rfl⟩
    rw [badOperand_of_kinds hm, admits_reg_regByte]
    rfl
  · refine .inr ⟨.a, a, ?_, h⟩
    rw [badOperand_of_kinds hm, admits_reg_of_le ha]
    rfl

theorem decodeF2RI_answer {m : Mnemonic} (hm : m.operandKinds = (.reg, .imm)) (op a b : Byte) {k : Reg → Byte → Instr}
    (hk : ∀ r, (k r b).mnemonic = m ∧ (k r b).operandBytes = [regByte r, b]) :
    OperandAnswer m op a b (decodeF2RI op a b k) := by
  rcases withReg_cases op .a a (fun r => .ok (k r b)) with ⟨r, rfl, h⟩ | ⟨ha, h⟩
  · refine .inl ⟨?_, k r b, h, (hk r).1, [], by rw [(hk r).2]; rfl⟩
    rw [badOperand_of_kinds hm, admits_reg_regByte]
    rfl
  · refine .inr ⟨.a, a, ?_, h⟩
    rw [badOperand_of_kinds hm, admits_reg_of_le ha]
    rfl

theorem decodeF2RR_answer {m : Mnemonic} (hm : m.operandKinds = (.reg, .reg)) (op a b : Byte) {k : Reg → Reg → Instr}
    (hk : ∀ r q, (k r q).mnemonic = m ∧ (k r q).operandBytes = [regByte r, regByte q]) :
    OperandAnswer m op a b (decodeF2RR op a b k) := by
  rcases withReg_cases op .a a (fun r => withReg op .b b fun q => .ok (k r q)) with ⟨r, rfl, h⟩ | ⟨ha, h⟩
  · rcases withReg_cases op .b b (fun q => .ok (k r q)) with ⟨q, rfl, h'⟩ | ⟨hb, h'⟩
    · refine .inl ⟨?_, k r q, h.trans h', (hk r q).1, [], by rw [(hk r q).2]; rfl⟩
      rw [badOperand_of_kinds hm, admits_reg_regByte, admits_reg_regByte]
      rfl
    · refine .inr ⟨.b, b, ?_, h.trans h'⟩
      rw [badOperand_of_kinds hm, admits_reg_regByte, admits_reg_of_le hb]
      rfl
  · refine .inr ⟨.a, a, ?_, h⟩
    rw [badOperand_of_kinds hm, admits_reg_of_le ha]
    rfl

/-- The decoder and the operand check agree, for every operation. -/
theorem decodeOperands_answer (m : Mnemonic) (op a b : Byte) :
    OperandAnswer m op a b (decodeOperands m op a b) := by
  cases m with
  | hlt => exact .inl ⟨rfl, .hlt, rfl, rfl, [a, b], rfl⟩
  | ret => exact .inl ⟨rfl, .ret, rfl, rfl, [a, b], rfl⟩
  | push | pop | prn | call | jmp | jeq | jne | not => exact decodeF1R_answer rfl op a b fun _ => ⟨rfl, rfl⟩
  | ldi => exact decodeF2RI_answer rfl op a b fun _ => ⟨rfl, rfl⟩
  | add | mul | mod | cmp | and | or | xor | shl | shr =>
    exact decodeF2RR_answer rfl op a b fun _ _ => ⟨rfl, rfl⟩

/-- What the operand check names is a byte above 7 at its position, and an operation without operands has none. -/
theorem badOperand_eq_some {m : Mnemonic} {a b v : Byte} {pos : OperandPos} (h : m.badOperand a b = some (pos, v)) :
    m ≠ .hlt ∧ m ≠ .ret ∧ 8 ≤ v.toNat ∧ v = (match pos with | .a => a | .b => b) := by
  have hle : ∀ {k : OperandKind} {w : Byte}, (!k.admits w) = true → 8 ≤ w.toNat := by
    intro k w hw
    cases k with
    | reg => simpa [OperandKind.admits] using hw
    | unused | imm => cases hw
  refine ⟨?_, ?_, ?_⟩
  · rintro rfl; cases h
  · rintro rfl; cases h
  · unfold Mnemonic.badOperand at h
    split at h
    · cases h
      exact ⟨hle ‹_›, rfl⟩
    · split at h
      · cases h
        exact ⟨hle ‹_›, rfl⟩
      · cases h

/-! ### What the decoder can answer -/

theorem opcodeOf_injective {m m' : Mnemonic} (h : opcodeOf m = opcodeOf m') : m = m' := by
  have hd := decodeOpcode_opcodeOf m
  rw [h, decodeOpcode_opcodeOf] at hd
  exact (Option.some.inj hd).symm

/-- How many operand bytes an operation's format uses (R76). -/
def usedOperands (m : Mnemonic) : Nat := (m.operandKinds.1 != .unused).toNat + (m.operandKinds.2 != .unused).toNat

theorem operandCount_opcodeOf (m : Mnemonic) : operandCount (opcodeOf m) = usedOperands m := by
  cases m <;> decide

theorem lengthOf_opcodeOf (m : Mnemonic) : lengthOf (opcodeOf m) = 1 + usedOperands m := by
  rw [lengthOf, operandCount_opcodeOf]

/-- The operations that write `pc` themselves (R72). -/
theorem pcControl_opcodeOf_iff (m : Mnemonic) :
    pcControl (opcodeOf m) = true ↔ m ∈ [.call, .ret, .jmp, .jeq, .jne] := by
  cases m <;> decide

/-- The operations of the ALU (R73). -/
theorem aluBit_opcodeOf_iff (m : Mnemonic) :
    (opcodeOf m).getLsbD 5 = true ↔ m ∈ [.add, .mul, .mod, .cmp, .and, .or, .xor, .shl, .shr, .not] := by
  cases m <;> decide

theorem operandBytes_length (i : Instr) : i.operandBytes.length = usedOperands i.mnemonic := by
  cases i <;> rfl

/-- What decodes begins with the opcode of the instruction and its operand bytes. -/
theorem window_of_decode {op a b : Byte} {i : Instr} (h : decode op a b = .ok i) :
    op = i.opcode ∧ ∃ rest, i.operandBytes ++ rest = [a, b] := by
  unfold decode at h
  cases hd : decodeOpcode op with
  | none => rw [hd] at h; cases h
  | some m =>
    simp only [hd] at h
    rcases decodeOperands_answer m op a b with ⟨-, j, hj, hm, hrest⟩ | ⟨pos, v, -, hv⟩
    · cases hj.symm.trans h
      exact ⟨by rw [decodeOpcode_eq_some hd, Instr.opcode, hm], hrest⟩
    · cases hv.symm.trans h

/-- The decoder answers 'unknown opcode' from the multiplexer alone. -/
theorem decode_unknownOpcode_iff {op op' a b : Byte} :
    decode op a b = .error (.unknownOpcode op') ↔ op' = op ∧ op ∉ opcodes := by
  rw [← decodeOpcode_eq_none, decode]
  cases hd : decodeOpcode op with
  | none => simp [eq_comm]
  | some m =>
    rcases decodeOperands_answer m op a b with ⟨-, j, hj, -⟩ | ⟨pos, v, -, hv⟩
    · simp [hj]
    · simp [hv]

/-! ### The obligations -/

/-- Settles O1: the opcode selects the operation, and the operand bytes of the encoding give the instruction back. -/
theorem decodeOfEncodeIsInstruction : Obligations.DecodeOfEncodeIsInstruction := by
  intro i rest
  obtain ⟨u, v, h⟩ := windowOf_eq i rest
  rw [h, Instr.opcode, decode_opcodeOf]
  exact decodeOperands_operandBytes i _ u v

/-- Settles O2, by the opcode and the operand bytes that the window begins with. -/
theorem acceptedBytesAreAnEncoding : Obligations.AcceptedBytesAreAnEncoding := by
  intro op a b i h
  obtain ⟨rfl, rest, hrest⟩ := window_of_decode h
  exact ⟨rest, congrArg (i.opcode :: ·) hrest⟩

/-- Settles O3: the 20 values written out are `opcodes`, outside which alone the multiplexer finds nothing. -/
theorem unknownOpcodesAreExactlyTheOthers : Obligations.UnknownOpcodesAreExactlyTheOthers := by
  intro op a b
  refine ⟨?_, fun op' h => (decode_unknownOpcode_iff.1 h).1⟩
  rw [decode_unknownOpcode_iff]
  exact and_iff_right rfl

/-- Settles O6, reading the operand check's verdict off the decoder's two answers. -/
theorem operandBytesAreCheckedInOrder : Obligations.OperandBytesAreCheckedInOrder := by
  intro m a b
  rw [decode_opcodeOf]
  rcases decodeOperands_answer m (opcodeOf m) a b with ⟨hnone, i, hi, hm, -⟩ | ⟨pos, v, hsome, hv⟩
  · exact ⟨fun pos v h => (by rw [hnone] at h; cases h), fun _ => ⟨i, hi, hm⟩⟩
  · refine ⟨fun pos' v' h => ?_, fun h => ?_⟩
    · cases hsome.symm.trans h
      exact hv
    · rw [Mnemonic.wellFormed, hsome] at h
      cases h

/-- Settles O4: the multiplexer undoes the map, and the bits are read off each opcode. -/
theorem opcodeMapMeetsItsConstraints : Obligations.OpcodeMapMeetsItsConstraints := by
  refine ⟨fun m m' => opcodeOf_injective, fun i => ?_⟩
  refine ⟨?_, ?_, pcControl_opcodeOf_iff i.mnemonic, aluBit_opcodeOf_iff i.mnemonic⟩
  · rw [Instr.opcode, operandCount_opcodeOf, operandBytes_length]
  · rw [Instr.opcode, lengthOf_opcodeOf, encode, List.length_cons, operandBytes_length, Nat.add_comm]

/-- Settles O5: each word is closed, and decoding computes. -/
theorem specWordsDecode : Obligations.SpecWordsDecode := ⟨rfl, rfl, rfl, rfl, rfl, rfl, rfl, rfl⟩

end Sys2Proof
end

section
/-!
PROOFS. What an operation raises and what it writes, as two functions of the state, and the execution cycle read through them
(30_encoding.md R90 to R96, 60_exceptions.md R201 to R213).
-/

namespace Sys2Proof.Machine

/-! ### The fault of an operation and its writes -/

/-- The fault an operation raises from `s`, if it raises one (60_exceptions.md R201). -/
def raised : Instr → State → Option FaultRecord
  | .push _, s | .call _, s => if s.sp = 0#8 then some (.boundsViolation .stackPush (-1) s.pc) else none
  | .pop a, s => if (s.setReg a s.top).sp = 255#8 then some (.boundsViolation .stackPop 256 s.pc) else none
  | .ret, s => if s.sp = 255#8 then some (.boundsViolation .stackPop 256 s.pc) else none
  | .mod _ b, s => if s.reg b = 0#8 then some (.divisionByZero s.pc b) else none
  | _, _ => none

/-- The state after the writes of an operation that raises nothing from `s`. -/
def written : Instr → State → State
  | .hlt, s => s.haltNormally
  | .ret, s => (s.setSp (trunc8 (s.sp.toNat + 1))).jump s.top
  | .push a, s => s.pushed fun t => t.reg a
  | .pop a, s => (s.setReg a s.top).setSp (trunc8 ((s.setReg a s.top).sp.toNat + 1))
  | .prn a, s => s.emit (s.reg a)
  | .call a, s => (s.pushed fun _ => s.returnAddress).jump ((s.pushed fun _ => s.returnAddress).reg a)
  | .jmp a, s => s.jump (s.reg a)
  | .jeq a, s => { s with pc := if s.fl.e = true then (s.reg a).toNat else s.pc + 2 }
  | .jne a, s => { s with pc := if s.fl.e = false then (s.reg a).toNat else s.pc + 2 }
  | .not a, s => s.setReg a (aluNot (s.reg a))
  | .ldi a imm, s => s.setReg a imm
  | .add a b, s => s.setReg a (aluAdd (s.reg a) (s.reg b))
  | .mul a b, s => s.setReg a (aluMul (s.reg a) (s.reg b))
  | .mod a b, s => s.setReg a (aluMod (s.reg a) (s.reg b))
  | .cmp a b, s => s.setFlags (Flags.compare (s.reg a) (s.reg b))
  | .and a b, s => s.setReg a (aluAnd (s.reg a) (s.reg b))
  | .or a b, s => s.setReg a (aluOr (s.reg a) (s.reg b))
  | .xor a b, s => s.setReg a (aluXor (s.reg a) (s.reg b))
  | .shl a b, s => s.setReg a (aluShl (s.reg a) (s.reg b))
  | .shr a b, s => s.setReg a (aluShr (s.reg a) (s.reg b))

/-- A branch on either decision is a write of `pc` (42_control_flow.md R160). -/
theorem State.branch_eq (s : State) (c : Bool) (a : Reg) :
    s.branch c a = { s with pc := if c = true then (s.reg a).toNat else s.pc + 2 } := by
  cases c <;> rfl

theorem effect_eq (i : Instr) (s : State) : effect i s = (raised i s).elim (.ok (written i s)) .error := by
  cases i with
  | push a =>
    rcases s.push_cases (fun t => t.reg a) with ⟨h, hp⟩ | ⟨h, hp⟩ <;> simp [effect, raised, written, h, hp]
  | call a =>
    rcases effect_call a s with ⟨h, hp⟩ | ⟨h, hp⟩ <;> simp [raised, written, h, hp]
  | pop a =>
    rcases (s.setReg a s.top).incSp_cases with ⟨h, hp⟩ | ⟨h, hp⟩ <;> simp [effect, raised, written, h, hp]
  | ret =>
    rcases effect_ret s with ⟨h, hp⟩ | ⟨h, hp⟩ <;> simp [raised, written, h, hp]
  | mod a b =>
    by_cases h : s.reg b = 0#8 <;> simp [effect, raised, written, h]
  | jeq a => exact congrArg Except.ok (s.branch_eq s.fl.e a)
  | jne a =>
    simp only [effect, State.branch_eq, Bool.not_eq_true']
    rfl
  | _ => rfl

/-- An operation that raises nothing is its writes and the end of the cycle (R94). -/
theorem exec_of_not_raised {i : Instr} {s : State} (h : raised i s = none) :
    exec i s = .next ((written i s).endCycle i.mnemonic) :=
  exec_of_effect_ok (by rw [effect_eq, h]; rfl)

/-- An operation that raises is the raise (R96). -/
theorem exec_of_raised {i : Instr} {s : State} {k : FaultRecord} (h : raised i s = some k) :
    exec i s = .next (s.raise k) :=
  exec_of_effect_error (by rw [effect_eq, h]; rfl)

/-- There is nothing else an operation can answer. -/
theorem exec_next_cases {i : Instr} {s t : State} (h : exec i s = .next t) :
    (∃ k, raised i s = some k ∧ t = s.raise k) ∨
      (raised i s = none ∧ t = (written i s).endCycle i.mnemonic) := by
  cases hr : raised i s with
  | none => exact .inr ⟨rfl, Host.Outcome.next.inj (h.symm.trans (exec_of_not_raised hr))⟩
  | some k => exact .inl ⟨k, rfl, Host.Outcome.next.inj (h.symm.trans (exec_of_raised hr))⟩

theorem exec_total (i : Instr) (s : State) : ∃ t, exec i s = .next t := by
  rw [exec_eq_finish]
  exact s.finish_total _ _

/-- What each fault of an operation says of the state it is raised in (R201). -/
theorem raised_cases {i : Instr} {s : State} {k : FaultRecord} (h : raised i s = some k) :
    (k = .boundsViolation .stackPush (-1) s.pc ∧ i.mnemonic ∈ [.push, .call] ∧ s.sp = 0#8) ∨
    (k = .boundsViolation .stackPop 256 s.pc ∧
      ((i = .ret ∧ s.sp = 255#8) ∨ ∃ a, i = .pop a ∧ (s.setReg a s.top).sp = 255#8)) ∨
    (∃ a b, k = .divisionByZero s.pc b ∧ i = .mod a b ∧ s.reg b = 0#8) := by
  cases i with
  | push a | call a =>
    obtain ⟨hsp, hk⟩ := Option.ite_none_right_eq_some.1 h
    exact .inl ⟨(Option.some.inj hk).symm, by simp [Instr.mnemonic], hsp⟩
  | pop a =>
    obtain ⟨hsp, hk⟩ := Option.ite_none_right_eq_some.1 h
    exact .inr (.inl ⟨(Option.some.inj hk).symm, .inr ⟨a, rfl, hsp⟩⟩)
  | ret =>
    obtain ⟨hsp, hk⟩ := Option.ite_none_right_eq_some.1 h
    exact .inr (.inl ⟨(Option.some.inj hk).symm, .inl ⟨rfl, hsp⟩⟩)
  | mod a b =>
    obtain ⟨hb, hk⟩ := Option.ite_none_right_eq_some.1 h
    exact .inr (.inr ⟨a, b, (Option.some.inj hk).symm, rfl, hb⟩)
  | _ => cases h

/-- SP as a POP finds it once the register is written: the byte popped for R7, and else SP itself (41_stack.md R145). -/
theorem setReg_top_sp (s : State) (a : Reg) :
    (s.setReg a s.top).sp = if a = 7 then s.mem.read s.sp.toNat else s.sp := by
  rw [State.setReg_sp, State.top_eq]
  simp only [eq_comm]

/-- A POP whose register write leaves SP at 255: SP was there, or the byte at SP went into R7. -/
theorem sp_or_top_of_setReg_top_sp {s : State} {a : Reg} (h : (s.setReg a s.top).sp = 255#8) :
    s.sp = 255#8 ∨ (a = 7 ∧ s.mem.read s.sp.toNat = 255#8) := by
  rw [setReg_top_sp] at h
  split at h
  · exact .inr ⟨‹_›, h⟩
  · exact .inl h

/-- Of the status, an operation's writes touch it for HLT alone. -/
theorem written_status (i : Instr) (s : State) :
    (written i s).status = if i = .hlt then .halted .hlt else s.status := by
  cases i with
  | hlt => rfl
  | _ => rw [if_neg (by simp)]; rfl

/-! ### The fetch, check by check (60_exceptions.md R205) -/

theorem fetch_of_pc_out_of_range {s : State} (h : 255 < s.pc) :
    s.fetch = .error (.boundsViolation .opcodeFetch s.pc s.pc) := if_pos h

theorem fetch_of_unknown {s : State} (h : s.pc ≤ 255) (hop : s.mem.read s.pc ∉ opcodes) :
    s.fetch = .error (.unknownOpcode (s.mem.read s.pc) s.pc) := by
  rw [State.fetch, if_neg (by omega), decodeOpcode_eq_none.2 hop]

theorem fetch_of_known {s : State} {m : Mnemonic} (h : s.pc ≤ 255) (hop : s.mem.read s.pc = opcodeOf m) :
    s.fetch = s.fetchOperands m (opcodeOf m) := by
  rw [State.fetch, if_neg (by omega), hop, decodeOpcode_opcodeOf]

theorem fetchOperands_of_window {s : State} (h : 253 < s.pc) (h' : s.pc ≤ 255) (m : Mnemonic) (op : Byte) :
    s.fetchOperands m op = .error (.boundsViolation .operandFetch 256 s.pc) := by
  rw [State.fetchOperands, windowFault_some h h']

theorem fetchOperands_of_badOperand {s : State} {m : Mnemonic} {pos : OperandPos} {v : Byte} (h : s.pc ≤ 253)
    (hbad : m.badOperand (s.mem.read (s.pc + 1)) (s.mem.read (s.pc + 2)) = some (pos, v)) (op : Byte) :
    s.fetchOperands m op = .error (.badRegister op s.pc pos v) := by
  rw [State.fetchOperands, windowFault_none h]
  rcases decodeOperands_answer m op (s.mem.read (s.pc + 1)) (s.mem.read (s.pc + 2)) with ⟨hok, -⟩ | ⟨pos', v', hv, he⟩
  · rw [hok] at hbad; cases hbad
  · cases hbad.symm.trans hv
    simp only [he]
    rfl

/-- The checks a fetch can fail, each with its record. -/
theorem fetch_error_cases {s : State} {k : FaultRecord} (h : s.fetch = .error k) :
    (k = .boundsViolation .opcodeFetch s.pc s.pc ∧ 255 < s.pc) ∨
    (k = .unknownOpcode (s.mem.read s.pc) s.pc ∧ s.mem.read s.pc ∉ opcodes) ∨
    (k = .boundsViolation .operandFetch 256 s.pc ∧ (s.pc = 254 ∨ s.pc = 255)) ∨
    (∃ m pos v, k = .badRegister (s.mem.read s.pc) s.pc pos v ∧ s.mem.read s.pc = opcodeOf m ∧
      m.badOperand (s.mem.read (s.pc + 1)) (s.mem.read (s.pc + 2)) = some (pos, v)) := by
  rcases s.fetch_cases with ⟨hpc, hf⟩ | ⟨-, hd, hf⟩ | ⟨hpc, hpc', -, hf⟩ | ⟨hpc, m, hd, hf⟩
  · exact .inl ⟨Except.error.inj (h.symm.trans hf), hpc⟩
  · exact .inr (.inl ⟨Except.error.inj (h.symm.trans hf), decodeOpcode_eq_none.1 hd⟩)
  · exact .inr (.inr (.inl ⟨Except.error.inj (h.symm.trans hf), by omega⟩))
  · rw [hf] at h
    rcases decodeOperands_answer m (s.mem.read s.pc) (s.mem.read (s.pc + 1)) (s.mem.read (s.pc + 2)) with
      ⟨-, i, hi, -⟩ | ⟨pos, v, hbad, he⟩
    · simp only [hi] at h
      cases h
    · simp only [he] at h
      exact .inr (.inr (.inr ⟨m, pos, v, (Except.error.inj h).symm, decodeOpcode_eq_some hd, hbad⟩))

/-- A step that ends in a fault: the fetch failed or the fetched operation raised, and either way it is the raise. -/
theorem step_fault_cases {s t : State} {k : FaultRecord} (h : step s = .next t) (hk : t.status = .halted (.fault k)) :
    t = s.raise k ∧ (s.fetch = .error k ∨ ∃ i, s.fetch = .ok i ∧ raised i s = some k) := by
  obtain ⟨hs, ⟨k', hf, rfl⟩ | ⟨i, hf, he⟩⟩ := step_eq_next h
  · cases hk
    exact ⟨rfl, .inl hf⟩
  · rcases exec_next_cases he with ⟨k', hr, rfl⟩ | ⟨-, rfl⟩
    · cases hk
      exact ⟨rfl, .inr ⟨i, hf, hr⟩⟩
    · rw [State.endCycle_status, written_status, hs] at hk
      split at hk <;> cases hk

/-! ### The obligations -/

/-- Settles O7, through the fetch of a decodable window. -/
theorem stepRunsDecodedInstruction : Obligations.StepRunsDecodedInstruction := fun _ _ hs hpc hd =>
  step_of_fetch_ok hs (State.fetch_eq_ok.2 ⟨hpc, hd⟩)

/-- Settles O8: a running core raises a fetch fault or runs an operation, and both answer a next state. -/
theorem stepsExactlyWhileRunning : Obligations.StepsExactlyWhileRunning := by
  refine fun s => ⟨⟨fun ⟨t, h⟩ => (step_eq_next h).1, fun hs => ?_⟩, fun r => step_of_halted⟩
  cases hf : s.fetch with
  | error k => exact ⟨_, step_of_fetch_error hs hf⟩
  | ok i => exact step_of_fetch_ok hs hf ▸ exec_total i s

/-- Settles O9: the end of an operation is a next state, raised or not. -/
theorem everyInstructionAnswersNext : Obligations.EveryInstructionAnswersNext := exec_total

/-- Settles O10, one failed check each. -/
theorem fetchChecksInOrder : Obligations.FetchChecksInOrder := by
  refine fun s hs => ⟨fun h => ?_, fun h hop => ?_, fun h h' hop => ?_, fun h m pos v hop hbad => ?_⟩
  · exact step_of_fetch_error hs (fetch_of_pc_out_of_range h)
  · exact step_of_fetch_error hs (fetch_of_unknown h hop)
  · obtain ⟨m, -, hm⟩ := List.mem_map.1 hop
    exact step_of_fetch_error hs ((fetch_of_known h' hm.symm).trans (fetchOperands_of_window h h' ..))
  · exact step_of_fetch_error hs ((fetch_of_known (by omega) hop).trans (fetchOperands_of_badOperand h hbad _))

/-- Settles O11: a step that ends in a fault is the raise. -/
theorem faultsArePrecise : Obligations.FaultsArePrecise := fun _ _ _ h hk => (step_fault_cases h hk).1

/-- Settles O12: the cause of a fault is that of the failed check or of the operation, whose bytes are the encoding of what
was fetched. -/
theorem faultsHaveTheirCause : Obligations.FaultsHaveTheirCause := by
  intro s t k h hk
  obtain ⟨-, hf | ⟨i, hf, hr⟩⟩ := step_fault_cases h hk
  · rcases fetch_error_cases hf with ⟨rfl, hpc⟩ | ⟨rfl, hop⟩ | ⟨rfl, hpc⟩ | ⟨m, pos, v, rfl, hop, hbad⟩
    · exact ⟨rfl, rfl, hpc⟩
    · exact ⟨rfl, rfl, hop⟩
    · exact ⟨rfl, rfl, hpc⟩
    · obtain ⟨hhlt, hret, hle, hv⟩ := badOperand_eq_some hbad
      refine ⟨rfl, rfl, hop ▸ opcodeOf_mem_opcodes m, fun hc => hhlt (opcodeOf_injective (hop.symm.trans hc)),
        fun hc => hret (opcodeOf_injective (hop.symm.trans hc)), hle, ?_⟩
      cases pos <;> exact hv
  · obtain ⟨hop, rest, hbytes⟩ := window_of_decode (State.fetch_eq_ok.1 hf).2
    rcases raised_cases hr with ⟨rfl, hm, hsp⟩ | ⟨rfl, ⟨rfl, hsp⟩ | ⟨a, rfl, hsp⟩⟩ | ⟨a, b, rfl, rfl, hb⟩
    · exact ⟨rfl, rfl, hsp, hop ▸ List.mem_map_of_mem (f := opcodeOf) hm⟩
    · exact ⟨rfl, rfl, by rw [hop]; simp [Instr.opcode, Instr.mnemonic], .inl hsp⟩
    · refine ⟨rfl, rfl, by rw [hop]; simp [Instr.opcode, Instr.mnemonic], (sp_or_top_of_setReg_top_sp hsp).imp_right ?_⟩
      rintro ⟨rfl, htop⟩
      exact ⟨hop, (List.cons.inj hbytes).1.symm, htop⟩
    · exact ⟨rfl, hb, hop, (List.cons.inj (List.cons.inj hbytes).2).1⟩

end Sys2Proof.Machine
end

section
/-!
PROOFS. What an operation leaves alone and where it leaves `pc` (10_state.md R25, R28, R37, 20_memory.md R51), read off its writes.
-/

namespace Sys2Proof.Machine

/-! ### The writes, part by part -/

/-- A part of the state that neither a raise nor the end of the cycle touches is what the writes left it or what it was. -/
theorem exec_regs_mem_cases {i : Instr} {s t : State} (h : exec i s = .next t) :
    (t.regs = s.regs ∧ t.mem = s.mem) ∨ (t.regs = (written i s).regs ∧ t.mem = (written i s).mem) := by
  rcases exec_next_cases h with ⟨k, -, rfl⟩ | ⟨-, rfl⟩
  · exact .inl ⟨rfl, rfl⟩
  · exact .inr ⟨State.endCycle_regs .., State.endCycle_mem ..⟩

/-- PUSH and CALL write one cell. -/
theorem State.pushed_read_ne (s : State) (value : State → Byte) :
    SameMemoryBut s (s.pushed value) (s.sp.toNat - 1) := by
  intro addr h
  rw [State.pushed_mem, Memory.read_write_ne _ _ h]

/-- The status plays no part in what an operation raises. -/
theorem raised_withStatus (i : Instr) (s : State) (st : Status) : raised i { s with status := st } = raised i s := by
  cases i <;> rfl

/-- The status plays no part in the writes, but that HLT replaces it. -/
theorem written_withStatus (i : Instr) (s : State) (st st' : Status) :
    { written i { s with status := st } with status := st' } = { written i s with status := st' } := by
  cases i <;> rfl

theorem endCycle_withStatus (s : State) (m : Mnemonic) (st : Status) :
    { s.endCycle m with status := st } = { s with status := st }.endCycle m := by
  unfold State.endCycle
  split <;> rfl

/-- An operation under another status ends as it did, up to the status. -/
theorem exec_withStatus {i : Instr} {s t : State} (h : exec i s = .next t) (st : Status) :
    ∃ u, exec i { s with status := st } = .next u ∧ { u with status := t.status } = t := by
  have hr := raised_withStatus i s st
  rcases exec_next_cases h with ⟨k, hk, rfl⟩ | ⟨hn, rfl⟩
  · exact ⟨_, exec_of_raised (hr.trans hk), rfl⟩
  · refine ⟨_, exec_of_not_raised (hr.trans hn), ?_⟩
    rw [endCycle_withStatus, written_withStatus, ← endCycle_withStatus]

/-! ### Where `pc` is after an operation that raises nothing -/

/-- An operation that ends without a fault has completed. -/
theorem eq_completed_of_no_fault {i : Instr} {s t : State} (h : exec i s = .next t)
    (hk : ∀ k, t.status ≠ .halted (.fault k)) : t = (written i s).endCycle i.mnemonic := by
  rcases exec_next_cases h with ⟨k, -, rfl⟩ | ⟨-, rfl⟩
  · exact absurd rfl (hk k)
  · rfl

/-- The PC-control bit of an instruction, computed from its name (30_encoding.md R72). -/
theorem pcControl_opcode (i : Instr) :
    pcControl i.opcode = decide (i.mnemonic ∈ [.call, .ret, .jmp, .jeq, .jne]) :=
  Bool.eq_iff_iff.2 ((pcControl_opcodeOf_iff i.mnemonic).trans decide_eq_true_iff.symm)

/-- An operation whose PC-control bit is clear leaves `pc` to the cycle. -/
theorem written_pc_of_advance {i : Instr} (h : pcControl i.opcode = false) (s : State) : (written i s).pc = s.pc := by
  rw [pcControl_opcode] at h
  cases i with
  | ret | call _ | jmp _ | jeq _ | jne _ => cases h
  | _ => rfl

/-- R94 with the bit clear: past the instruction, whose length its format gives. -/
theorem completed_pc_of_advance {i : Instr} (h : pcControl i.opcode = false) (s : State) :
    ((written i s).endCycle i.mnemonic).pc = s.pc + (1 + usedOperands i.mnemonic) := by
  rw [State.endCycle_pc_of_advance _ h (lengthOf_opcodeOf _), written_pc_of_advance h]

/-- R94 with the bit set: where the operation wrote it. -/
theorem completed_pc_of_control {i : Instr} (h : pcControl i.opcode = true) (s : State) :
    ((written i s).endCycle i.mnemonic).pc = (written i s).pc := State.endCycle_pc_of_control _ h

/-! ### The flags and the status of a step -/

/-- The Equal flag an operation leaves does not depend on the other two. -/
theorem flagsAfter_e (i : Instr) (s : State) {f g : Flags} (h : f.e = g.e) :
    (flagsAfter i s f).e = (flagsAfter i s g).e := by
  cases i with
  | cmp a b => rfl
  | _ => exact h

/-- The fetch does not look at the flags, and no operation tells apart two states with the same Equal flag. -/
theorem step_withFlags {s t : State} {f : Flags} (h : step s = .next t) (hf : f.e = s.fl.e) :
    ∃ f', step { s with fl := f } = .next { t with fl := f' } ∧ f'.e = t.fl.e := by
  obtain ⟨hs, ⟨k, hfetch, rfl⟩ | ⟨i, hfetch, he⟩⟩ := step_eq_next h
  · exact ⟨f, step_of_fetch_error (s := { s with fl := f }) hs hfetch, hf⟩
  · refine ⟨flagsAfter i s f, ?_, ?_⟩
    · rw [step_of_fetch_ok (s := { s with fl := f }) hs hfetch, exec_withFlags he (.inr hf)]
    · rw [exec_fl he, flagsAfter_e i s hf]

/-- A HLT is fetched exactly where its window is in range and its opcode stands. -/
theorem fetch_eq_hlt_iff {s : State} : s.fetch = .ok .hlt ↔ s.pc ≤ 253 ∧ s.mem.read s.pc = opcodeOf .hlt := by
  rw [State.fetch_eq_ok]
  refine and_congr_right fun _ => ⟨fun h => (window_of_decode h).1, fun h => ?_⟩
  rw [h, decode_opcodeOf]
  rfl

/-- A step ends in the normal halt exactly when it fetched a HLT. -/
theorem step_halts_iff {s t : State} (h : step s = .next t) : t.status = .halted .hlt ↔ s.fetch = .ok .hlt := by
  obtain ⟨hs, ⟨k, hf, rfl⟩ | ⟨i, hf, he⟩⟩ := step_eq_next h
  · simp [hf]
  · rcases exec_next_cases he with ⟨k, hk, rfl⟩ | ⟨-, rfl⟩
    · have hi : i ≠ .hlt := by rintro rfl; cases hk
      simp [hf, hi]
    · rw [State.endCycle_status, written_status, hs, hf]
      split <;> simp_all

/-! ### The obligations -/

/-- Settles O15, by the registers that the writes of each operation set. -/
theorem registerWriters : Obligations.RegisterWriters := by
  intro i s t h r hr
  rcases exec_regs_mem_cases h with ⟨hregs, -⟩ | ⟨hregs, -⟩
  · exact congrArg (Regs.get · r) hregs
  · refine (congrArg (Regs.get · r) hregs).trans ?_
    change (written i s).reg r = s.reg r
    cases i with
    | push a => exact (s.pushed_reg (·.reg a) r).trans (if_neg (List.ne_of_not_mem_cons hr))
    | call a => exact (s.pushed_reg (fun _ => s.returnAddress) r).trans (if_neg (List.ne_of_not_mem_cons hr))
    | ret => exact (s.setSp_reg r _).trans (if_neg (List.ne_of_not_mem_cons hr))
    | pop a =>
      have hr7 : r ≠ 7 := List.ne_of_not_mem_cons (List.not_mem_of_not_mem_cons hr)
      exact ((State.setSp_reg _ r _).trans (if_neg hr7)).trans
        ((s.setReg_reg a r _).trans (if_neg (List.ne_of_not_mem_cons hr)))
    | ldi a | not a | add a | mul a | and a | or a | xor a | shl a | shr a | mod a =>
      exact (s.setReg_reg a r _).trans (if_neg (List.ne_of_not_mem_cons hr))
    | _ => rfl

/-- Settles O18: only a push writes memory, and one cell of it. -/
theorem memoryWriters : Obligations.MemoryWriters := by
  intro i s t h
  have hmem : t.mem = s.mem ∨ t.mem = (written i s).mem := (exec_regs_mem_cases h).imp And.right And.right
  have hpushed : ∀ value, t.mem = s.mem ∨ t.mem = (s.pushed value).mem → SameMemoryBut s t (s.sp.toNat - 1) := by
    rintro value (hm | hm) addr haddr
    · rw [hm]
    · rw [hm, s.pushed_read_ne value addr haddr]
  cases i with
  | push a => exact hpushed (·.reg a) hmem
  | call a => exact hpushed (fun _ => s.returnAddress) hmem
  | _ => exact fun addr => congrArg (Memory.read · addr) (hmem.elim id id)

/-- Settles O21, row by row of the table. -/
theorem pcAdvanceTable : Obligations.PcAdvanceTable := by
  intro i s t h hk
  obtain rfl := eq_completed_of_no_fault h hk
  cases i with
  | ret | jmp a | jeq a | jne a => exact ⟨pcControl_opcode _, completed_pc_of_control (pcControl_opcode _) s⟩
  | call a =>
    exact ⟨pcControl_opcode _, by rw [completed_pc_of_control (pcControl_opcode _), State.endCycle_reg]; rfl⟩
  | _ => exact ⟨pcControl_opcode _, completed_pc_of_advance (pcControl_opcode _) s⟩

/-- Settles O13: with the bit clear by the length that the opcode gives, with the bit set by the table of O21. -/
theorem pcAdvanceFollowsOpcodeBits : Obligations.PcAdvanceFollowsOpcodeBits := by
  intro i s t h hk
  refine ⟨fun hc => ?_, fun hc => ?_⟩
  · rw [eq_completed_of_no_fault h hk, completed_pc_of_advance hc, Instr.opcode, operandCount_opcodeOf, Nat.add_assoc]
  · have hrow := pcAdvanceTable i s t h hk
    rw [pcControl_opcode] at hc
    cases i with
    | ret | call a | jmp a => exact hrow.2
    | jeq a | jne a =>
      obtain ⟨-, hpc⟩ := hrow
      split at hpc
      · exact .inl hpc
      · exact .inr hpc
    | _ => cases hc

/-- Settles O17: with Equal as it was, the step differs in the flags alone, and not in Equal. -/
theorem lessAndGreaterAreNeverRead : Obligations.LessAndGreaterAreNeverRead := by
  intro s t l g h
  obtain ⟨⟨l', g', -⟩, hstep, rfl⟩ := step_withFlags (f := { s.fl with l := l, g := g }) h rfl
  exact ⟨l', g', hstep⟩

/-- Settles O20: an operation keeps the status, halts normally if it is HLT, or raises if it is one of the five that can. -/
theorem statusIsWrittenByHltAndFaults : Obligations.StatusIsWrittenByHltAndFaults := by
  refine ⟨fun i s t h => ?_, fun i s t st h => exec_withStatus h st,
    fun s t h => (step_halts_iff h).trans fetch_eq_hlt_iff, rfl⟩
  rcases exec_next_cases h with ⟨k, hk, rfl⟩ | ⟨-, rfl⟩
  · cases i with
    | mod | push | pop | call | ret => exact .inr ⟨k, rfl⟩
    | _ => cases hk
  · have hst := (State.endCycle_status _ i.mnemonic).trans (written_status i s)
    cases i with
    | mod | push | pop | call | ret => exact .inl hst
    | _ => exact hst

end Sys2Proof.Machine
end

section
/-!
PROOFS. The image input, the invariant, and the runs (70_reset_and_hazards.md R230 to R235, 10_state.md R27, R34, 20_memory.md R50).
-/

namespace Sys2Proof.Machine

/-! ### The image input -/

/-- The state an image of at most 256 bytes is booted into. -/
def booted (image : List Byte) : State :=
  { State.reset with mem := State.reset.mem.writeList Config.imageStart image }

theorem boot_of_length_le {image : List Byte} (h : image.length ≤ 256) : State.boot image = .next (booted image) :=
  if_neg (Nat.not_lt.2 h)

theorem boot_of_lt_length {image : List Byte} (h : 256 < image.length) :
    State.boot image = .refused (.imageTooLong image.length) := if_pos h

/-- What boots is an image that fits, in its state. -/
theorem boot_eq_next {image : List Byte} {t : State} (h : State.boot image = .next t) :
    image.length ≤ 256 ∧ t = booted image := by
  by_cases hl : image.length ≤ 256
  · exact ⟨hl, Host.Outcome.next.inj (h.symm.trans (boot_of_length_le hl))⟩
  · cases h.symm.trans (boot_of_lt_length (Nat.lt_of_not_le hl))

/-- Memory holds the image from address 0 on, and 0 elsewhere (R231, 20_memory.md R58). -/
theorem booted_read (image : List Byte) (k : Nat) : (booted image).mem.read k = image.getD k 0#8 := by
  refine (Memory.read_writeList image List.Pairwise.nil Config.imageStart k).trans ?_
  by_cases h : k < image.length
  · exact if_pos ⟨Nat.zero_le k, (Nat.zero_add image.length).symm ▸ h⟩
  · rw [List.getD_eq_default _ _ (Nat.le_of_not_lt h)]
    exact if_neg fun hc => h (Nat.zero_add image.length ▸ hc.2)

/-! ### What keeps the invariant -/

/-- A state whose status is no fault records none. -/
theorem faultAtPc_of_no_fault {s : State} (h : ∀ k, s.status ≠ .halted (.fault k)) : s.FaultAtPc :=
  fun k hk => absurd hk (h k)

/-- A raise keeps the invariant when its record names the instruction at `pc` (60_exceptions.md R203). -/
theorem State.Inv.raise {s : State} (hs : s.Inv) {k : FaultRecord} (hk : k.pc? = some s.pc) : (s.raise k).Inv where
  mem := hs.mem
  pc := hs.pc
  fl := hs.fl
  fault := by
    intro k' hk'
    cases hk'
    exact hk

/-- A failed check of the fetch names `pc`. -/
theorem fetch_error_pc {s : State} {k : FaultRecord} (h : s.fetch = .error k) : k.pc? = some s.pc := by
  rcases fetch_error_cases h with ⟨rfl, -⟩ | ⟨rfl, -⟩ | ⟨rfl, -⟩ | ⟨m, pos, v, rfl, -⟩ <;> rfl

/-- A fault of an operation names `pc`. -/
theorem raised_pc {i : Instr} {s : State} {k : FaultRecord} (h : raised i s = some k) : k.pc? = some s.pc := by
  rcases raised_cases h with ⟨rfl, -⟩ | ⟨rfl, -⟩ | ⟨a, b, rfl, -⟩ <;> rfl

/-- A push stores inside the address space. -/
theorem State.pushed_wf {s : State} (h : s.mem.wf) (value : State → Byte) : (s.pushed value).mem.wf := by
  rw [State.pushed_mem]
  have hlt : s.sp.toNat - 1 < Config.memSize := Nat.lt_of_le_of_lt (Nat.sub_le ..) (byte_lt s.sp)
  exact Memory.wf_write h hlt _

theorem written_wf {s : State} (h : s.mem.wf) (i : Instr) : (written i s).mem.wf := by
  cases i with
  | push a => exact State.pushed_wf h (·.reg a)
  | call a => exact State.pushed_wf h (fun _ => s.returnAddress)
  | _ => exact h

theorem usedOperands_le (m : Mnemonic) : usedOperands m ≤ 2 := by
  cases m <;> decide

/-- An operation writes to `pc` a byte, or moves it past a jump not taken. -/
theorem written_pc_le (i : Instr) (s : State) : (written i s).pc ≤ max 255 (s.pc + 2) := by
  have hbyte : ∀ v : Byte, v.toNat ≤ max 255 (s.pc + 2) := fun v => by have := byte_lt v; omega
  cases i with
  | ret | call a | jmp a => exact hbyte _
  | jeq a | jne a =>
    simp only [written]
    split
    · exact hbyte _
    · omega
  | _ => exact Nat.le_trans (Nat.le_add_right s.pc 2) (Nat.le_max_right ..)

/-- From an address where an instruction may stand, an operation leaves `pc` at 256 at most (10_state.md R27). -/
theorem completed_pc_le {s : State} (h : s.pc ≤ 253) (i : Instr) :
    ((written i s).endCycle i.mnemonic).pc ≤ 256 := by
  cases hc : pcControl i.opcode with
  | false =>
    have := usedOperands_le i.mnemonic
    rw [completed_pc_of_advance hc]
    omega
  | true =>
    have := written_pc_le i s
    rw [completed_pc_of_control hc]
    omega

/-- A comparison sets one flag, and every other operation leaves the flags (R34). -/
theorem flagsAfter_legal {s : State} {f : Flags} (h : f.legal = true) (i : Instr) : (flagsAfter i s f).legal = true := by
  cases i with
  | cmp a b =>
    change (Flags.compare (s.reg a) (s.reg b)).legal = true
    rcases Flags.compare_cases (s.reg a) (s.reg b) with h | h | h <;> rw [h] <;> rfl
  | _ => exact h

/-- An operation fetched in a running core keeps the invariant. -/
theorem exec_inv {s t : State} {i : Instr} (hs : s.Inv) (hrun : s.status = .running) (hpc : s.pc ≤ 253)
    (h : exec i s = .next t) : t.Inv := by
  have hfl : t.fl.legal = true := by
    rw [exec_fl h]
    exact flagsAfter_legal hs.fl i
  rcases exec_next_cases h with ⟨k, hk, rfl⟩ | ⟨-, rfl⟩
  · exact hs.raise (raised_pc hk)
  · refine ⟨?_, completed_pc_le hpc i, hfl, faultAtPc_of_no_fault fun k => ?_⟩
    · rw [State.endCycle_mem]
      exact written_wf hs.mem i
    · rw [State.endCycle_status, written_status, hrun]
      split <;> simp

/-- A run keeps whatever every step keeps. -/
theorem Reaches.invariant {P : State → Prop} (hstep : ∀ {s t}, P s → step s = .next t → P t) {s t : State}
    (hs : P s) (h : Reaches s t) : P t := by
  induction h with
  | start => exact hs
  | next _ hu ih => exact hstep ih hu

/-! ### The obligations -/

/-- Settles O54: a failed check and a raise keep every part but the status, and the writes of an operation keep each part. -/
theorem stepKeepsInvariant : Obligations.StepKeepsInvariant := by
  intro s t hs h
  obtain ⟨hrun, ⟨k, hf, rfl⟩ | ⟨i, hf, he⟩⟩ := step_eq_next h
  · exact hs.raise (fetch_error_pc hf)
  · exact exec_inv hs hrun (State.fetch_eq_ok.1 hf).1 he

/-- Settles O51: the registers, flags and status are those of reset, and memory is the image written into empty memory. -/
theorem bootPlacesImageInResetState : Obligations.BootPlacesImageInResetState := by
  refine fun image => ⟨fun h => ?_, boot_of_lt_length, rfl⟩
  have hregs : ∀ r : Reg, r ≠ 7 → (booted image).reg r = 0#8 := by
    intro r hr
    change Regs.reset.get r = 0#8
    decide +revert
  exact ⟨booted image, boot_of_length_le h, rfl, rfl, rfl, hregs, rfl, rfl, rfl, rfl, booted_read image⟩

/-- Settles O53: an image that fits is written inside the address space. -/
theorem invariantAtBoot : Obligations.InvariantAtBoot := by
  intro image t h
  obtain ⟨hl, rfl⟩ := boot_eq_next h
  have hfit : Config.imageStart + image.length ≤ Config.memSize := by
    rw [Config.imageStart, Nat.zero_add]
    exact hl
  exact ⟨Memory.wf_writeList image Memory.wf_nil _ hfit, Nat.zero_le 256, rfl,
    faultAtPc_of_no_fault fun k hk => by cases hk⟩

/-- Settles O52, as the boot of the empty image. -/
theorem invariantAtReset : Obligations.InvariantAtReset := invariantAtBoot [] State.reset rfl

/-- Settles O55: the invariant is carried along the run, and the last step of one that ends in a failed opcode fetch began at a
`pc` above 255, which the invariant bounds by 256. -/
theorem everyRunMeetsInvariant : Obligations.EveryRunMeetsInvariant := by
  intro image s t hb hr
  have hs : s.Inv := invariantAtBoot image s hb
  have hinv : ∀ {u}, Reaches s u → u.Inv := fun h => h.invariant (stepKeepsInvariant _ _) hs
  refine ⟨hinv hr, fun addr pc hk => ?_⟩
  cases hr with
  | start =>
    obtain ⟨-, rfl⟩ := boot_eq_next hb
    cases hk
  | next hu hstep =>
    obtain ⟨hpc, haddr, hlt⟩ := faultsHaveTheirCause _ _ _ hstep hk
    have := (hinv hu).pc
    omega

end Sys2Proof.Machine
end

section
/-!
PROOFS. The operations off the stack (40_alu.md, 42_control_flow.md, 43_print_halt_load.md): one lemma for those that write one
register, one for the jumps, and from them each operation's result.
-/

namespace Sys2Proof.Machine

/-! ### One register written, or `pc` alone -/

/-- The end of the cycle leaves memory as the writes left it. -/
theorem endCycle_sameMemory {s u : State} (h : u.mem = s.mem) (m : Mnemonic) : SameMemory s (u.endCycle m) :=
  fun addr => congrArg (Memory.read · addr) ((State.endCycle_mem u m).trans h)

/-- The end of the cycle leaves flags, status and output as the writes left them. -/
theorem endCycle_sameControl {s u : State} (hfl : u.fl = s.fl) (hst : u.status = s.status) (hout : u.out = s.out)
    (m : Mnemonic) : SameControl s (u.endCycle m) :=
  ⟨(State.endCycle_fl u m).trans hfl, (State.endCycle_status u m).trans hst, (State.endCycle_out u m).trans hout⟩

/-- An operation whose writes are one register and whose PC-control bit is clear. -/
theorem writesReg_of_written {i : Instr} {s : State} {a : Reg} {w : Byte} {v : Nat} (hr : raised i s = none)
    (hw : written i s = s.setReg a w) (hc : pcControl i.opcode = false) (hv : w.toNat = v) :
    WritesReg i s a v (1 + usedOperands i.mnemonic) := by
  refine ⟨_, exec_of_not_raised hr, ?_, completed_pc_of_advance hc s, fun r hr => ?_, ?_⟩
  · rw [State.endCycle_reg, hw, State.setReg_reg_self, hv]
  · rw [State.endCycle_reg, hw, State.setReg_reg, if_neg (List.ne_of_not_mem_cons hr)]
  · rw [hw]
    exact ⟨endCycle_sameMemory rfl _, endCycle_sameControl rfl rfl rfl _⟩

/-- An operation whose writes are `pc` and whose PC-control bit is set. -/
theorem writesPc_of_written {i : Instr} {s : State} {p : Nat} (hr : raised i s = none)
    (hw : written i s = { s with pc := p }) (hc : pcControl i.opcode = true) : WritesPc i s p := by
  refine ⟨_, exec_of_not_raised hr, ?_, fun r _ => ?_, ?_⟩
  · rw [completed_pc_of_control hc, hw]
  · rw [State.endCycle_reg, hw]
    rfl
  · rw [hw]
    exact ⟨endCycle_sameMemory rfl _, endCycle_sameControl rfl rfl rfl _⟩

/-! ### Shift counts of 8 or more -/

theorem byteSize_dvd_two_pow {n : Nat} (h : 8 ≤ n) : 256 ∣ 2 ^ n := Nat.pow_dvd_pow 2 h

/-- A byte shifted left by 8 or more leaves the 8 bits (40_alu.md R118). -/
theorem shiftLeft_mod_eq_zero (x : Byte) {n : Nat} (h : 8 ≤ n) : x.toNat * 2 ^ n % 256 = 0 :=
  Nat.mod_eq_zero_of_dvd ((byteSize_dvd_two_pow h).mul_left _)

/-- A byte shifted right by 8 or more is 0 (R119). -/
theorem shiftRight_eq_zero (x : Byte) {n : Nat} (h : 8 ≤ n) : x.toNat / 2 ^ n = 0 :=
  Nat.div_eq_of_lt (Nat.lt_of_lt_of_le (byte_lt x) (Nat.le_of_dvd (Nat.two_pow_pos n) (byteSize_dvd_two_pow h)))

/-! ### The obligations: the ALU -/

/-- Settles O22. -/
theorem addWritesSum : Obligations.AddWritesSum := fun _ _ _ =>
  writesReg_of_written rfl rfl (pcControl_opcode _) (aluAdd_toNat ..)

/-- Settles O23. -/
theorem mulWritesLowProduct : Obligations.MulWritesLowProduct := fun _ _ _ =>
  writesReg_of_written rfl rfl (pcControl_opcode _) (aluMul_toNat ..)

/-- Settles O24: the narrowed result is the bit-vector operation. -/
theorem andWritesBitwiseAnd : Obligations.AndWritesBitwiseAnd := fun _ _ _ =>
  writesReg_of_written rfl rfl (pcControl_opcode _) (congrArg BitVec.toNat (aluAnd_eq ..))

/-- Settles O25: the narrowed result is the bit-vector operation. -/
theorem orWritesBitwiseOr : Obligations.OrWritesBitwiseOr := fun _ _ _ =>
  writesReg_of_written rfl rfl (pcControl_opcode _) (congrArg BitVec.toNat (aluOr_eq ..))

/-- Settles O26: the narrowed result is the bit-vector operation, which gives 0 on equal operands. -/
theorem xorWritesBitwiseXor : Obligations.XorWritesBitwiseXor := by
  have hxor : ∀ (a b : Reg) (s : State), WritesReg (.xor a b) s a (s.reg a ^^^ s.reg b).toNat 3 := fun _ _ _ =>
    writesReg_of_written rfl rfl (pcControl_opcode _) (congrArg BitVec.toNat (aluXor_eq ..))
  refine fun a b s => ⟨hxor a b s, ?_⟩
  have haa := hxor a a s
  rwa [BitVec.xor_self] at haa

/-- Settles O27: 255 minus the complement is the value again. -/
theorem notWritesComplement : Obligations.NotWritesComplement := by
  have hnot : ∀ (a : Reg) (s : State), WritesReg (.not a) s a (255 - (s.reg a).toNat) 2 := fun _ _ =>
    writesReg_of_written rfl rfl (pcControl_opcode _) (aluNot_toNat _)
  refine fun a s => ⟨hnot a s, (BitVec.toNat_not (x := s.reg a)).symm, fun t ht => ?_⟩
  obtain ⟨t', ht', hval, -⟩ := hnot a s
  obtain rfl := Host.Outcome.next.inj (ht.symm.trans ht')
  have htwice := hnot a t
  have hlt := byte_lt (s.reg a)
  rwa [hval, Nat.sub_sub_self (by omega)] at htwice

/-- Settles O28: a count of 8 or more makes the product a multiple of 256. -/
theorem shlShiftsByWholeRegister : Obligations.ShlShiftsByWholeRegister := by
  intro a b s
  have hshl : WritesReg (.shl a b) s a ((s.reg a).toNat * 2 ^ (s.reg b).toNat % 256) 3 :=
    writesReg_of_written rfl rfl (pcControl_opcode _) (aluShl_toNat ..)
  exact ⟨hshl, fun h => shiftLeft_mod_eq_zero (s.reg a) h ▸ hshl⟩

/-- Settles O29: a count of 8 or more makes the divisor exceed every byte. -/
theorem shrShiftsByWholeRegister : Obligations.ShrShiftsByWholeRegister := by
  intro a b s
  have hshr : WritesReg (.shr a b) s a ((s.reg a).toNat / 2 ^ (s.reg b).toNat) 3 :=
    writesReg_of_written rfl rfl (pcControl_opcode _) (aluShr_toNat ..)
  exact ⟨hshr, fun h => shiftRight_eq_zero (s.reg a) h ▸ hshr⟩

/-- Settles O30, on the arm of MOD that raises nothing. -/
theorem modWritesRemainder : Obligations.ModWritesRemainder := fun _ _ _ h =>
  writesReg_of_written (if_neg h) rfl (pcControl_opcode _) (aluMod_toNat ..)

/-- Settles O31, on the arm of MOD that raises. -/
theorem modByZeroRaises : Obligations.ModByZeroRaises := fun _ _ _ h => exec_of_raised (if_pos h)

/-- Settles O32: the three flags are the three orders of the values as numbers. -/
theorem cmpSetsUnsignedOrder : Obligations.CmpSetsUnsignedOrder := by
  refine fun a b s => ⟨_, exec_of_not_raised rfl, ?_, ?_, ?_, completed_pc_of_advance (pcControl_opcode _) s, ?_⟩
  · simp [written]
  · simp [written]
  · simp [written, BitVec.toNat_inj]
  · exact ⟨fun r _ => State.endCycle_reg .., endCycle_sameMemory rfl _,
      State.endCycle_status .., State.endCycle_out ..⟩

/-! ### The obligations: jumps, print, halt, load-immediate -/

/-- Settles O43. -/
theorem jmpSetsPc : Obligations.JmpSetsPc := fun _ _ => writesPc_of_written rfl rfl (pcControl_opcode _)

/-- Settles O44. -/
theorem jeqJumpsIffEqual : Obligations.JeqJumpsIffEqual := fun _ _ => writesPc_of_written rfl rfl (pcControl_opcode _)

/-- Settles O45: Equal clear is Equal not set. -/
theorem jneJumpsIffNotEqual : Obligations.JneJumpsIffNotEqual := by
  refine fun a s => writesPc_of_written rfl ?_ (pcControl_opcode _)
  cases h : s.fl.e <;> simp [written, h]

/-- Settles O46: the jump tests the Equal flag that the CMP left, from the registers that it kept. -/
theorem cmpThenJumpTestsEquality : Obligations.CmpThenJumpTestsEquality := by
  intro a b c s t h
  obtain ⟨t', ht', -, -, he, hpc, hregs, -⟩ := cmpSetsUnsignedOrder a b s
  obtain rfl := Host.Outcome.next.inj (h.symm.trans ht')
  have hjeq := jeqJumpsIffEqual c t
  have hjne := jneJumpsIffNotEqual c t
  simp only [he, hpc, hregs c List.not_mem_nil, Nat.add_assoc] at hjeq hjne
  exact ⟨hjeq, hjne⟩

/-- Settles O47. -/
theorem prnAppendsRegister : Obligations.PrnAppendsRegister := fun _ s =>
  ⟨_, exec_of_not_raised rfl, State.endCycle_out .., completed_pc_of_advance (pcControl_opcode _) s,
    fun _ _ => State.endCycle_reg .., endCycle_sameMemory rfl _,
    State.endCycle_fl .., State.endCycle_status ..⟩

/-- Settles O48: the status that HLT writes enables no step. -/
theorem hltHaltsNormally : Obligations.HltHaltsNormally := fun s =>
  ⟨_, exec_of_not_raised rfl, State.endCycle_status .., completed_pc_of_advance (pcControl_opcode _) s,
    fun _ _ => State.endCycle_reg .., endCycle_sameMemory rfl _,
    State.endCycle_fl .., State.endCycle_out .., step_of_halted (State.endCycle_status ..)⟩

/-- Settles O49. -/
theorem ldiWritesImmediate : Obligations.LdiWritesImmediate := fun _ _ _ =>
  writesReg_of_written rfl rfl (pcControl_opcode _) rfl

/-- Settles O50: PRN appends what LDI left in the register to the output that LDI kept. -/
theorem ldiThenPrnPrintsLiteral : Obligations.LdiThenPrnPrintsLiteral := by
  intro a imm s
  obtain ⟨t, ht, hreg, hpc, -, -, -, -, hout⟩ := ldiWritesImmediate a imm s
  obtain ⟨u, hu, hout', hpc', -⟩ := prnAppendsRegister a t
  exact ⟨t, u, ht, hu, by rw [hout', hout, BitVec.eq_of_toNat_eq hreg], by rw [hpc', hpc]⟩

end Sys2Proof.Machine
end

section
/-!
PROOFS. The stack operations (41_stack.md R141 to R148), over what the push primitive leaves and what moving SP up leaves.
-/

namespace Sys2Proof.Machine

/-! ### After the push primitive -/

/-- The cell below the old SP holds the pushed value, evaluated after the decrement (R142). -/
theorem State.pushed_read {s : State} (h : s.mem.wf) (value : State → Byte) :
    (s.pushed value).mem.read (s.sp.toNat - 1) = value (s.setSp (trunc8 (s.sp.toNat - 1))) := by
  rw [State.pushed_mem, Memory.read_write_self h]

theorem State.pushed_sameRegs (s : State) (value : State → Byte) : SameRegsBut s (s.pushed value) [7] :=
  fun r hr => (s.pushed_reg value r).trans (if_neg (List.ne_of_not_mem_cons hr))

/-- A jump leaves the registers as they were. -/
theorem jump_sameRegs {s u : State} {ws : List Reg} (h : SameRegsBut s u ws) (v : Byte) :
    SameRegsBut s (u.jump v) ws := h

/-- A jump leaves memory as it was. -/
theorem jump_sameMemoryBut {s u : State} {at_ : Nat} (h : SameMemoryBut s u at_) (v : Byte) :
    SameMemoryBut s (u.jump v) at_ := h

/-- The end of the cycle leaves the registers as the writes left them. -/
theorem endCycle_sameRegs {s u : State} {ws : List Reg} (h : SameRegsBut s u ws) (m : Mnemonic) :
    SameRegsBut s (u.endCycle m) ws :=
  fun r hr => (State.endCycle_reg u m r).trans (h r hr)

/-- The end of the cycle leaves the bytes of memory as the writes left them. -/
theorem endCycle_sameMemoryBut {s u : State} {at_ : Nat} (h : SameMemoryBut s u at_) (m : Mnemonic) :
    SameMemoryBut s (u.endCycle m) at_ := by
  intro addr haddr
  rw [State.endCycle_mem, h addr haddr]

/-- PUSH where there is room, as the state it leaves. -/
theorem exec_push {s : State} (h : s.sp ≠ 0#8) (a : Reg) :
    exec (.push a) s = .next ((s.pushed (·.reg a)).endCycle .push) := exec_of_not_raised (if_neg h)

/-- CALL where there is room, as the state it leaves. -/
theorem exec_call {s : State} (h : s.sp ≠ 0#8) (a : Reg) :
    exec (.call a) s = .next (((s.pushed fun _ => s.returnAddress).jump
      ((s.pushed fun _ => s.returnAddress).reg a)).endCycle .call) := exec_of_not_raised (if_neg h)

/-! ### After SP has moved up -/

/-- A second write of a register replaces the first. -/
theorem State.setReg_setReg (s : State) (r : Reg) (v w : Byte) : (s.setReg r v).setReg r w = s.setReg r w :=
  congrArg (fun x => { s with regs := x }) (Regs.set_set s.regs r v w)

/-- POP where SP can go up, as the state it leaves. -/
theorem exec_pop {s : State} {a : Reg} (h : (s.setReg a s.top).sp ≠ 255#8) :
    exec (.pop a) s = .next (((s.setReg a s.top).setSp (trunc8 ((s.setReg a s.top).sp.toNat + 1))).endCycle .pop) :=
  exec_of_not_raised (if_neg h)

/-- RET where SP can go up, as the state it leaves. -/
theorem exec_ret {s : State} (h : s.sp ≠ 255#8) :
    exec .ret s = .next (((s.setSp (trunc8 (s.sp.toNat + 1))).jump s.top).endCycle .ret) :=
  exec_of_not_raised (if_neg h)

theorem State.setSp_sameRegs (s : State) (v : Byte) : SameRegsBut s (s.setSp v) [7] :=
  fun r hr => (s.setSp_reg r v).trans (if_neg (List.ne_of_not_mem_cons hr))

/-! ### The obligations, operation by operation -/

/-- Settles O33, by the register that the push primitive reads after it has moved SP. -/
theorem pushStoresBelowSp : Obligations.PushStoresBelowSp := by
  intro a s hm h
  refine ⟨_, exec_push h a, ?_, endCycle_sameRegs (s.pushed_sameRegs _) _, ?_,
    endCycle_sameMemoryBut (s.pushed_read_ne _) _, State.endCycle_push_pc _, endCycle_sameControl rfl rfl rfl _⟩
  · rw [State.endCycle_sp, State.pushed_sp, State.pushedSp_toNat]
  · rw [State.endCycle_mem, State.pushed_read hm, State.setSp_reg, State.endCycle_sp, State.pushed_sp]

/-- Settles O34: both raise before they write. -/
theorem pushAtZeroRaises : Obligations.PushAtZeroRaises := fun _ _ h =>
  ⟨exec_of_raised (if_pos h), exec_of_raised (if_pos h)⟩

/-- Settles O35: the write of the register leaves SP alone, which then goes up. -/
theorem popLoadsFromSp : Obligations.PopLoadsFromSp := by
  intro a s ha h
  have hsp : (s.setReg a s.top).sp = s.sp := by rw [setReg_top_sp, if_neg ha]
  refine ⟨_, exec_pop (hsp ▸ h), ?_, ?_, endCycle_sameRegs (fun r hr => ?_) _, endCycle_sameMemory rfl _,
    State.endCycle_pop_pc _, endCycle_sameControl rfl rfl rfl _⟩
  · rw [State.endCycle_reg, State.setSp_reg, if_neg ha, State.setReg_reg_self, State.top_eq]
  · rw [State.endCycle_sp, State.setSp_sp, hsp, State.poppedSp_toNat h]
  · rw [State.setSp_sameRegs _ _ r (List.not_mem_of_not_mem_cons hr), State.setReg_reg,
      if_neg (List.ne_of_not_mem_cons hr)]

/-- Settles O36: the byte popped into R7 is the SP that goes up. -/
theorem popIntoSpLeavesBytePlusOne : Obligations.PopIntoSpLeavesBytePlusOne := by
  intro s h
  have hsp : (s.setReg 7 s.top).sp = s.mem.read s.sp.toNat := by rw [setReg_top_sp, if_pos rfl]
  have hup : (s.setReg 7 s.top).sp ≠ 255#8 := hsp ▸ h
  refine writesReg_of_written (if_neg hup) (s.setReg_setReg 7 s.top _) (pcControl_opcode _) ?_
  rw [State.poppedSp_toNat hup, hsp]

/-- Settles O37: the register is written into a state that the raise gives up. -/
theorem popPastTopRaises : Obligations.PopPastTopRaises := by
  intro a s h
  refine exec_of_raised (if_pos ?_)
  rw [setReg_top_sp]
  split at h
  · rwa [if_pos ‹_›]
  · rwa [if_neg ‹_›]

/-- Settles O38, by the register that the jump reads after the push. -/
theorem callPushesReturnAddress : Obligations.CallPushesReturnAddress := by
  intro a s hm h hpc
  refine ⟨_, exec_call h a, ?_, endCycle_sameRegs (jump_sameRegs (s.pushed_sameRegs _) _) _, ?_,
    endCycle_sameMemoryBut (jump_sameMemoryBut (s.pushed_read_ne _) _) _, ?_, endCycle_sameControl rfl rfl rfl _⟩
  · rw [State.endCycle_sp, State.jump_sp, State.pushed_sp, State.pushedSp_toNat]
  · rw [State.endCycle_mem, State.jump_mem, State.pushed_read hm, State.returnAddress, trunc8_toNat_of_lt (by omega)]
  · rw [State.endCycle_call_pc, State.jump_pc, State.pushed_reg]
    split
    · exact s.pushedSp_toNat
    · rfl

/-- Settles O39. -/
theorem retPopsIntoPc : Obligations.RetPopsIntoPc := by
  intro s h
  refine ⟨_, exec_ret h, State.endCycle_ret_pc _, ?_, endCycle_sameRegs (jump_sameRegs (s.setSp_sameRegs _) _) _,
    endCycle_sameMemory rfl _, endCycle_sameControl rfl rfl rfl _⟩
  rw [State.endCycle_sp, State.jump_sp, State.setSp_sp, State.poppedSp_toNat h]

/-- Settles O40: RET raises before it writes. -/
theorem retPastTopRaises : Obligations.RetPastTopRaises := fun _ h => exec_of_raised (if_pos h)

/-! ### The obligations: a push and what follows it -/

/-- Moving SP down and up again gives it back (R148). -/
theorem sp_restored {v w : Byte} (hv : v ≠ 0#8) (hw : w.toNat = v.toNat - 1) :
    w ≠ 255#8 ∧ trunc8 (w.toNat + 1) = v := by
  have hlt := byte_lt v
  have hpos : v.toNat ≠ 0 := fun h => hv (BitVec.eq_of_toNat_eq h)
  refine ⟨fun h => ?_, BitVec.eq_of_toNat_eq ?_⟩
  · rw [h] at hw
    simp at hw
    omega
  · rw [trunc8_toNat]
    omega

/-- Settles O41: the byte popped is the register pushed, and for R7 it is the decremented SP, which then goes up. -/
theorem pushThenPopRestoresRegisters : Obligations.PushThenPopRestoresRegisters := by
  intro a s hm h
  obtain ⟨t, ht, hsp, hregs, hread, -, hpc, hfl, hst, hout⟩ := pushStoresBelowSp a s hm h
  obtain ⟨hne, hback⟩ := sp_restored h hsp
  have htop : t.top = if a = 7 then t.sp else s.reg a := by rw [State.top_eq, hsp, hread]
  have hsp' : (t.setReg a t.top).sp = t.sp := by
    rw [State.setReg_sp, htop]
    split
    · rw [if_pos (Eq.symm ‹_›)]
    · rfl
  refine ⟨t, _, ht, exec_pop (hsp' ▸ hne), fun r => ?_, ?_, ?_⟩
  · rw [State.endCycle_reg, State.setSp_reg, hsp', hback]
    by_cases hr : r = 7
    · rw [if_pos hr, hr, State.sp_eq_reg]
    · rw [if_neg hr, State.setReg_reg]
      by_cases hra : r = a
      · rw [if_pos hra, htop, if_neg (hra ▸ hr), hra]
      · rw [if_neg hra, hregs r (by simpa using hr)]
  · rw [State.endCycle_pop_pc, State.setSp_pc, State.setReg_pc, hpc]
  · exact endCycle_sameControl (u := (t.setReg a t.top).setSp _) hfl hst hout _

/-- Settles O42: the byte at the SP of the CALL is the return address, and SP goes up from there. -/
theorem retResumesAfterCall : Obligations.RetResumesAfterCall := by
  intro a s t u hm h hpc hcall hsp hread
  obtain ⟨t', ht', htsp, -, haddr, -⟩ := callPushesReturnAddress a s hm h hpc
  obtain rfl := Host.Outcome.next.inj (hcall.symm.trans ht')
  obtain ⟨hne, hback⟩ := sp_restored h (hsp ▸ htsp)
  refine ⟨_, exec_ret hne, ?_, ?_⟩
  · rw [State.endCycle_ret_pc, State.jump_pc, State.top_eq, hread, htsp, haddr]
  · rw [State.endCycle_sp, State.jump_sp, State.setSp_sp, hback]

/-- The operand byte of a one-register instruction at `pc` is latched by the fetch (30_encoding.md R93). -/
theorem step_of_bytes {s : State} (hrun : s.status = .running) (hpc : s.pc ≤ 253) {i : Instr} {a : Reg}
    (hop : s.mem.read s.pc = i.opcode) (ha : s.mem.read (s.pc + 1) = regByte a) (hi : i.operandBytes = [regByte a]) :
    step s = exec i s := by
  refine stepRunsDecodedInstruction s i hrun hpc ?_
  have hdec := decodeOperands_operandBytes i i.opcode 0 (s.mem.read (s.pc + 2))
  rw [hi] at hdec
  rw [hop, ha, Instr.opcode, decode_opcodeOf]
  exact hdec

/-- Settles O14: the fetch latches the operand, and the push then writes over its byte. -/
theorem ownOperandByteIsLatched : Obligations.OwnOperandByteIsLatched := by
  intro s a hm hrun hpc hsp ha hbyte
  have hcell : s.sp.toNat - 1 = s.pc + 1 := by omega
  have hne : s.sp ≠ 0#8 := by
    intro h
    rw [h] at hsp
    simp at hsp
  refine ⟨fun hop => ?_, fun hop => ?_⟩
  · obtain ⟨t, ht, -, -, hread, -, hpc', -⟩ := pushStoresBelowSp a s hm hne
    rw [hcell, if_neg ha] at hread
    exact ⟨t, (step_of_bytes (i := .push a) hrun hpc hop hbyte rfl).trans ht, hread, hpc'⟩
  · obtain ⟨t, ht, -, -, hread, -, hpc', -⟩ := callPushesReturnAddress a s hm hne hpc
    rw [hcell] at hread
    rw [if_neg ha] at hpc'
    exact ⟨t, (step_of_bytes (i := .call a) hrun hpc hop hbyte rfl).trans ht, hread, hpc'⟩

end Sys2Proof.Machine
end
